-- ==== Sys2Proof/Word.lean ====
section
/-! DEFINITION. The word types of GBHP (00_scope.md R6, R7): bytes, 16-bit unsigned integers and strings. -/

namespace Sys2Proof

/-- `u8`: a byte of the image, a command byte, the checksum accumulator (R7). -/
abbrev Byte := BitVec 8

/-- `u16`: a two-byte header field or an integer result (R6, R7). -/
abbrev Half := BitVec 16

/-- `Str`: a finite byte sequence with its length and no terminator (R8, 30_encoding.md R76). -/
abbrev Str := List Byte

end Sys2Proof
end

