-- ==== Sys2Proof/Config.lean ====
section
/-! DEFINITION. What the source leaves open and the model takes as configuration (00_scope.md R5,
92_eei_decisions.md D14, D15). Every constant here is uninterpreted: no proof can see a value of it. The
entries the source pins stand in Sys2Proof/Machine/Tables.lean. -/

namespace Sys2Proof

/-- The strings of `CTYPE_TABLE` the source does not give (indexes 0x02..0x22); its values at the pinned
indexes 0x00 and 0x01 are never used (R5, R91; log entry 8). -/
opaque Config.ctypeOpen : Fin 35 → Str

/-- `LIC_TABLE` at the keys the source does not settle: `none` where the key has no entry; its values at the
pinned keys 0x00, 0x02 and 0x31 are never used (R5, R92; log entry 9). -/
opaque Config.licOpen : Fin 165 → Option Str

/-- How far `LEN_W` exceeds 9, the least width R5 allows. -/
opaque Config.lenWExtra : Nat

/-- `LEN_W`, the width of `LEN` in bits: "natural number, at least 9" (R5; log entry 7). -/
def Config.lenW : Nat := 9 + Config.lenWExtra

end Sys2Proof
end

