-- ==== Sys2Proof/Machine/HostPort.lean ====
section
/-! DEFINITION. What the host can do to one instance (10_state.md R28): write `CMD`, replace the image, reset,
and read a register by name (92_eei_decisions.md D28: registers have names and no addresses). There is no
operation that writes a register or a single image byte: R28 gives the host none. -/

namespace Sys2Proof.Machine

/-- The registers by name (10_state.md R11, R12, R22, R23, R28). -/
inductive HostReg where
  /-- The packed status view (R23). -/
  | status
  /-- The error code (R20). -/
  | err
  /-- The result of the last command (R21). -/
  | res
  /-- The image's length (R15). -/
  | len
  /-- The checksum accumulator (R17). -/
  | ckComputed
  /-- The comparison's outcome (R19). -/
  | ckPassed
  /-- Whether a checksum result stands (R18). -/
  | ckDone
  /-- Whether the header view is valid (R16). -/
  | parsed
  /-- The other name of `CK_PASSED` (R19). -/
  | headerValid
  /-- The command port, write-only (R22): reading it is refused. -/
  | cmd
  | hEntry
  | hLogo
  | hTitle
  | hLicensee
  | hSgb
  | hCtype
  | hRomsz
  | hRamsz
  | hDest
  | hOldlic
  | hVersion
  | hHchk
  | hGchk
deriving DecidableEq, Repr

/-- The thirteen header view registers of R12, the ones that have no value while `PARSED = 0` (R27). -/
def HostReg.isHeaderView : HostReg → Bool
  | .hEntry | .hLogo | .hTitle | .hLicensee | .hSgb | .hCtype | .hRomsz | .hRamsz | .hDest | .hOldlic
  | .hVersion | .hHchk | .hGchk => true
  | .status | .err | .res | .len | .ckComputed | .ckPassed | .ckDone | .parsed | .headerValid | .cmd => false

/-- One operation of the host on the instance (R28, 70_reset_and_hazards.md R197). -/
inductive HostOp where
  /-- Write byte `c` to `CMD` (R22). -/
  | writeCmd (c : Byte)
  /-- `HostLoadImage(bytes)` (R31). -/
  | loadImage (bytes : List Byte)
  /-- `HostReset` (R32, R190). -/
  | hostReset
  /-- Read a register (R28). -/
  | readReg (r : HostReg)
deriving DecidableEq, Repr

end Sys2Proof.Machine
end

