-- ==== Sys2Proof/Syntax.lean ====
section
/-! DEFINITION. The commands of GBHP, one constructor per row of spec/opcode_table.json (30_encoding.md R70,
R71). Commands carry no operands (R60, R73): every operand is a header field at a fixed offset. -/

namespace Sys2Proof

/-- The eight commands (R70); R71: these are every command the block has. -/
inductive Instr where
  /-- `PARSE`, 41_header_view.md R110. -/
  | parse
  /-- `VALIDATE`, 42_checksum_validator.md R130. -/
  | validate
  /-- `CTYPE_NAME`, 43_decoder_facade.md R141. -/
  | ctypeName
  /-- `LICENSEE_NAME`, 43_decoder_facade.md R142. -/
  | licenseeName
  /-- `ROM_SIZE_KIB`, 43_decoder_facade.md R143. -/
  | romSizeKib
  /-- `RAM_SIZE_KIB`, 43_decoder_facade.md R144. -/
  | ramSizeKib
  /-- `LOAD`, 44_load_cartridge.md R160. -/
  | load
  /-- `TITLE_TEXT`, 41_header_view.md R112. -/
  | titleText
deriving DecidableEq, Repr

end Sys2Proof
end

