-- ==== Sys2Proof/WellFormed.lean ====
section
/-! DEFINITION. Well-formedness. A command is its opcode alone (30_encoding.md R70, R73), so no command term is
ill-formed; what can be ill-formed is what the host does: an image too long for `LEN` (10_state.md R31) or a
read of a register the host may not read (R22, R28). -/

namespace Sys2Proof

/-- A command has no register, immediate or mode field that could be out of range (R60, R73). -/
def Instr.wf : Instr → Bool
  | .parse => true
  | .validate => true
  | .ctypeName => true
  | .licenseeName => true
  | .romSizeKib => true
  | .ramSizeKib => true
  | .load => true
  | .titleText => true

namespace Machine

/-- R31: the length of a loaded image "must be < 2^LEN_W". -/
def imageFits (bytes : List Byte) : Prop := bytes.length < 2 ^ Config.lenW

/-- R28: every register but the write-only `CMD` can be read. -/
def HostReg.readable (r : HostReg) : Bool := r != .cmd

/-- What the spec allows the host: images that fit `LEN` (R31) and reads of readable registers (R22, R28). -/
def HostOp.wf : HostOp → Prop
  | .writeCmd _ => True
  | .loadImage bytes => imageFits bytes
  | .hostReset => True
  | .readReg r => r.readable = true

end Machine

end Sys2Proof
end

