-- ==== Sys2Proof/Decode.lean ====
section
/-! DEFINITION. The command decoder and, after it, the encoder (30_encoding.md R70 to R73, opcode_table.json).
A command is one byte; the decoder is total and rejects by name. -/

namespace Sys2Proof

/-- Why the decoder rejects. -/
inductive DecodeReject where
  /-- A reserved command byte, 0x00 or 0x09..0xFF (R72). -/
  | reservedCommand (c : Byte)
  /-- No byte to decode: a command has exactly one (R73). -/
  | noByte
deriving DecidableEq, Repr

/-- A row of the opcode table: a byte `c` is the row's command when `c &&& mask = code`. -/
structure OpRow where
  mnemonic : String
  mask : Byte
  code : Byte
  instr : Instr
deriving DecidableEq, Repr

/-- The opcode table (R70, R71; opcode_table.json). -/
def opTable : List OpRow :=
  [ { mnemonic := "PARSE",         mask := 0xFF, code := 0x01, instr := .parse },
    { mnemonic := "VALIDATE",      mask := 0xFF, code := 0x02, instr := .validate },
    { mnemonic := "CTYPE_NAME",    mask := 0xFF, code := 0x03, instr := .ctypeName },
    { mnemonic := "LICENSEE_NAME", mask := 0xFF, code := 0x04, instr := .licenseeName },
    { mnemonic := "ROM_SIZE_KIB",  mask := 0xFF, code := 0x05, instr := .romSizeKib },
    { mnemonic := "RAM_SIZE_KIB",  mask := 0xFF, code := 0x06, instr := .ramSizeKib },
    { mnemonic := "LOAD",          mask := 0xFF, code := 0x07, instr := .load },
    { mnemonic := "TITLE_TEXT",    mask := 0xFF, code := 0x08, instr := .titleText } ]

/-- R71: "look `c` up among the eight `match` values; if absent, rule R72". -/
def decodeByte (c : Byte) : Except DecodeReject Instr :=
  match opTable.find? (fun r => c &&& r.mask == r.code) with
  | some r => .ok r.instr
  | none => .error (.reservedCommand c)

/-- Decode the first command of a byte sequence and give the rest; total on any bytes (R73: one byte a command). -/
def decodeBytes : List Byte → Except DecodeReject (Instr × List Byte)
  | [] => .error .noByte
  | c :: rest =>
    match decodeByte c with
    | .ok i => .ok (i, rest)
    | .error e => .error e

/-- The command byte of a command (R70). -/
def encode : Instr → Byte
  | .parse => 0x01
  | .validate => 0x02
  | .ctypeName => 0x03
  | .licenseeName => 0x04
  | .romSizeKib => 0x05
  | .ramSizeKib => 0x06
  | .load => 0x07
  | .titleText => 0x08

/-- The commands of a program's bytes, one byte a command, or the first byte's rejection (R73, R74). -/
def decodeProgram : List Byte → Except DecodeReject (List Instr)
  | [] => .ok []
  | c :: rest =>
    match decodeByte c with
    | .error e => .error e
    | .ok i =>
      match decodeProgram rest with
      | .ok is => .ok (i :: is)
      | .error e => .error e

/-- The `n` bytes of a table word, the first byte from the word's bits 7..0. -/
def wordBytes : Nat → Nat → List Byte
  | 0, _ => []
  | n + 1, w => BitVec.ofNat 8 w :: wordBytes n (w / 256)

/-- What the decoder reads from the word `w` of `nbits` bits numbered as opcode_table.json numbers them; a word
that is not one whole byte, or does not fit its `nbits`, is no command (R73; log entry 12). -/
def decodeTableWord (nbits w : Nat) : Option Instr :=
  if nbits % 8 = 0 ∧ w < 2 ^ nbits then
    match decodeBytes (wordBytes (nbits / 8) w) with
    | .ok (i, []) => some i
    | .ok (_, _ :: _) => none
    | .error _ => none
  else none

end Sys2Proof
end

