-- ==== Sys2Proof/Machine/State.lean ====
section
/-! DEFINITION. The state of one GBHP instance (10_state.md R10) as plain data, the reasons a step can stop, and
the state after reset (R30). -/

namespace Sys2Proof.Machine

/-- The image's bytes by offset, lowest first. An offset that is not listed holds NO byte (R14: the image is
indexed 0..`LEN`-1; log entry 6). -/
abbrev Memory := List Host.Cell

/-- The canonical form: offsets strictly rising. (No entry can equal what an unlisted offset reads as, since an
unlisted offset reads as no byte.) -/
abbrev Memory.wf (m : Memory) : Prop := (m.map Prod.fst).Pairwise (· < ·)

/-- The error kinds of R20 and 60_exceptions.md R171. Codes 8..15 are reserved and never written, and have no
constructor (93_implementation_defined.md U13; log entry 11). -/
inductive ErrKind where
  /-- Code 0: the command succeeded. -/
  | ok
  /-- Code 1: the host loader's, never written by the block (R172). -/
  | ioError
  /-- Code 2: `LEN < 0x150`. -/
  | truncatedImage
  /-- Code 3: cartridge type at or above 0x23. -/
  | unsupportedCartridgeType
  /-- Code 4: ROM-size code above 8. -/
  | unsupportedRomSize
  /-- Code 5: RAM-size code above 5. -/
  | unsupportedRamSize
  /-- Code 6: no parsed header. -/
  | noHeader
  /-- Code 7: a reserved command byte. -/
  | illegalCommand
deriving DecidableEq, Repr

/-- The shapes of `RES` (R21). -/
inductive Res where
  /-- `None`: no value. -/
  | none
  /-- `Int(n)`. -/
  | int (n : Half)
  /-- `Text(s)`. -/
  | text (s : Str)
deriving DecidableEq, Repr

/-- What a register read gives the host: the register's type in 10_state.md R10, R12, R23. -/
inductive HostValue where
  | bit (b : Bool)
  | nibble (v : BitVec 4)
  | byte (v : Byte)
  | half (v : Half)
  | count (n : Nat)
  | raw (bs : List Byte)
  | result (r : Res)
deriving DecidableEq, Repr

/-- RomHeader, the 13 fields of 30_encoding.md R61 (00_scope.md R9). -/
structure RomHeader where
  entryPoint : List Byte
  logo : List Byte
  title : List Byte
  licenseeCode : Half
  sgbFlag : Byte
  cartridgeType : Byte
  romSize : Byte
  ramSize : Byte
  destinationCode : Byte
  oldLicenseeCode : Byte
  maskRomVersionNumber : Byte
  headerChecksum : Byte
  globalChecksum : Half
deriving DecidableEq, Repr

/-- Checksum Result (00_scope.md R9). -/
structure ChecksumResult where
  computed : Byte
  passed : Bool
deriving DecidableEq, Repr

/-- LoadResult (44_load_cartridge.md R162). -/
structure LoadResult where
  headerValid : Bool
  header : RomHeader
  checksum : ChecksumResult
deriving DecidableEq, Repr

/-- The two outcomes of the host's file read (60_exceptions.md R172): a complete buffer or a failure. -/
inductive FileRead where
  | complete (bytes : List Byte)
  | fail
deriving DecidableEq, Repr

/-- The state of one instance: the eight elements of R10, and the host's side of the port. -/
structure State where
  /-- `IMG`: the image's bytes (R10, R14). -/
  img : Memory
  /-- `LEN`: the number of bytes in `IMG` (R10, R15). -/
  len : Nat
  /-- `PARSED` (R10, R16). -/
  parsed : Bool
  /-- `CK_COMPUTED` (R10, R17). -/
  ckComputed : Byte
  /-- `CK_PASSED`, other name `HEADER_VALID` (R10, R19). -/
  ckPassed : Bool
  /-- `CK_DONE` (R10, R18). -/
  ckDone : Bool
  /-- `ERR` (R10, R20). -/
  err : ErrKind
  /-- `RES` (R10, R21). -/
  res : Res
  /-- THE MODEL'S OWN: what the host does next, oldest first (R13, R48: the host's order; log entry 1). -/
  pending : List HostOp
  /-- THE MODEL'S OWN: the value the host's latest register read gave it (R28; log entry 4). -/
  hostRead : Option HostValue
deriving DecidableEq, Repr

/-- What stops the machine with a fault. -/
inductive Fault where
  /-- A read of an image offset where there is no byte: raised by any command or host read that reads `IMG`
  there. SAFE: 20_memory.md R47 shows that no run does so, and the model reads no invented byte. -/
  | imgAbsent (offset : Nat)
deriving DecidableEq, Repr

/-- What the machine refuses. -/
inductive Refusal where
  /-- An instruction without a meaning yet: raised by exec's arms only. SAFE. No arm raises it in this model. -/
  | notModelled (mnemonic : String)
  /-- A host read of an `H_*` view while `PARSED = 0`: raised by `hostReadReg`. SAFE: R27 says to refuse it. -/
  | viewUndefined (r : HostReg)
  /-- A host read of the write-only `CMD`: raised by `hostReadReg`. SAFE: R22, it cannot be read. -/
  | writeOnly (r : HostReg)
deriving DecidableEq, Repr

/-- The state after reset (R30, 70_reset_and_hazards.md R190); the last two fields are the model's own: the host
has done nothing yet (log entries 1 and 4). -/
def State.reset : State where
  img := []
  len := 0
  parsed := false
  ckComputed := 0
  ckPassed := false
  ckDone := false
  err := .ok
  res := .none
  pending := []
  hostRead := none

end Sys2Proof.Machine
end

