-- ==== Sys2Proof/Machine/Ops.lean ====
section
/-! DEFINITION. The constants of 00_scope.md R4, the named operations over the image and the registers, and
what `raise` does (60_exceptions.md R176): the block's only form of exception entry. There is no return from an
error and no handler (R177), so nothing stands beside it but the ordinary end of a command. -/

namespace Sys2Proof.Machine

/-- What one step of this machine answers. -/
abbrev Answer := Host.Outcome State Fault Refusal

/-! Constants (R4). -/

/-- `HDR_BASE`. -/
def hdrBase : Nat := 0x100
/-- `HDR_SIZE`. -/
def hdrSize : Nat := 0x50
/-- `MIN_LEN`: the least image length for the header to be valid. -/
def minLen : Nat := 0x150
/-- `CK_FIRST`. -/
def ckFirst : Nat := 0x134
/-- `CK_COUNT`: 25, not the source's 29 (90_conflicts.md C1). -/
def ckCount : Nat := 25
/-- `CK_STORED`. -/
def ckStored : Nat := 0x14D
/-- `TITLE_LEN`. -/
def titleLen : Nat := 16

/-! The image (20_memory.md). -/

/-- The byte listed at offset `a`, if one is. -/
def Memory.read : Memory → Nat → Option Byte
  | [], _ => none
  | (k, v) :: rest, a => if a = k then some v else Memory.read rest a

/-- The cells of a byte sequence laid from offset `base` upwards. -/
def Memory.ofBytesFrom : Nat → List Byte → Memory
  | _, [] => []
  | base, b :: bs => (base, b) :: Memory.ofBytesFrom (base + 1) bs

/-- The image that holds exactly `bytes`, from offset 0 (R31: `IMG <- bytes`). -/
def Memory.ofBytes (bytes : List Byte) : Memory := Memory.ofBytesFrom 0 bytes

/-- `IMG[a]`: the byte at offset `a`; offsets at or above `LEN` do not exist (R40, R47). -/
def imgByte (s : State) (a : Nat) : Option Byte :=
  if a < s.len then s.img.read a else none

/-- `MemRead(a, n)`: the `n` bytes from offset `a`, lowest offset first (00_scope.md R8); no value where one of
them does not exist. -/
def memRead (s : State) : Nat → Nat → Option (List Byte)
  | _, 0 => some []
  | a, n + 1 =>
    match imgByte s a, memRead s (a + 1) n with
    | some b, some bs => some (b :: bs)
    | _, _ => none

/-! The registers: every write of a state element goes through one of these. -/

/-- `IMG <- m ; LEN <- n`. -/
def State.setImage (m : Memory) (n : Nat) (s : State) : State := { s with img := m, len := n }

/-- `PARSED <- b`. -/
def State.setParsed (b : Bool) (s : State) : State := { s with parsed := b }

/-- `CK_COMPUTED <- c ; CK_PASSED <- p ; CK_DONE <- d` (R17 to R19: they are written together). -/
def State.setChecksum (c : Byte) (p d : Bool) (s : State) : State :=
  { s with ckComputed := c, ckPassed := p, ckDone := d }

/-- `ERR <- e ; RES <- r`: every command writes both (R20, R21). -/
def State.setResult (e : ErrKind) (r : Res) (s : State) : State := { s with err := e, res := r }

/-- The host's queue of operations (the model's own field). -/
def State.setPending (l : List HostOp) (s : State) : State := { s with pending := l }

/-- The value handed to the host by a register read (the model's own field). -/
def State.setHostRead (v : HostValue) (s : State) : State := { s with hostRead := some v }

/-! How a command ends. -/

/-- The 4-bit code of an error kind (R20). -/
def ErrKind.code : ErrKind → BitVec 4
  | .ok => 0
  | .ioError => 1
  | .truncatedImage => 2
  | .unsupportedCartridgeType => 3
  | .unsupportedRomSize => 4
  | .unsupportedRamSize => 5
  | .noHeader => 6
  | .illegalCommand => 7

/-- `RES <- None ; raise E`: `ERR <- code(E)`, everything else as it stands, no control transfer, nothing saved
(R176). -/
def raise (e : ErrKind) (s : State) : Answer := .next (s.setResult e .none)

/-- `RES <- r ; ERR <- 0`: a command that succeeds (R20, R21). -/
def succeed (r : Res) (s : State) : Answer := .next (s.setResult .ok r)

/-- R140 (a), R112: without a parsed header the command raises `NoHeader` and reads no image byte. -/
def withHeader (s : State) (k : State → Answer) : Answer :=
  if s.parsed then k s else raise .noHeader s

/-- Go on with a value read from the image at offset `a`; where the image has no byte there, stop (R47: no run
does). -/
def withImage {α : Type} (v : Option α) (a : Nat) (k : α → Answer) : Answer :=
  match v with
  | some x => k x
  | none => .fault (.imgAbsent a)

/-- End with what a lookup gives: its value, or the error it raises (40_lookup_tables.md R90). -/
def finishLookup {α : Type} (v : Except ErrKind α) (toRes : α → Res) (s : State) : Answer :=
  match v with
  | .ok x => succeed (toRes x) s
  | .error e => raise e s

/-- A reserved command byte (30_encoding.md R72): `ERR <- 7`, `RES <- None`, nothing else changes. -/
def illegalCommand (s : State) : Answer := raise .illegalCommand s

end Sys2Proof.Machine
end

