-- ==== Sys2Proof/Machine/Operands.lean ====
section
/-! DEFINITION. Operand assembly: the 13 header fields at their offsets and byte orders (10_state.md R12,
20_memory.md R41, R42, 30_encoding.md R61, R62) and the title text (R63, 41_header_view.md R113). None is sign
extended, scaled or shifted. A field has no value where the image lacks one of its bytes. -/

namespace Sys2Proof.Machine

/-- `le16(b0, b1) = b0 + 256 * b1`, `b0` from the lower offset (R8, R41). -/
def le16 (b0 b1 : Byte) : Half := b0.setWidth 16 + 256 * b1.setWidth 16

/-- `be16(b0, b1) = 256 * b0 + b1`, `b0` from the lower offset (R8, R41). -/
def be16 (b0 b1 : Byte) : Half := 256 * b0.setWidth 16 + b1.setWidth 16

/-- A two-byte field at offset `a`, its bytes put together by `f` (R42: two byte reads). -/
def imgHalf (f : Byte → Byte → Half) (s : State) (a : Nat) : Option Half :=
  match imgByte s a, imgByte s (a + 1) with
  | some b0, some b1 => some (f b0 b1)
  | _, _ => none

/-! The 13 fields of the `HDR` format (R61), without regard to `PARSED`. -/

/-- `entry_point`: 4 raw bytes at 0x100. -/
def fieldEntry (s : State) : Option (List Byte) := memRead s 0x100 4
/-- `logo`: 48 raw bytes at 0x104. -/
def fieldLogo (s : State) : Option (List Byte) := memRead s 0x104 48
/-- `title`: 16 raw bytes at 0x134, byte 15 not forced. -/
def fieldTitle (s : State) : Option (List Byte) := memRead s 0x134 titleLen
/-- `licensee_code`: little-endian at 0x144. -/
def fieldLicensee (s : State) : Option Half := imgHalf le16 s 0x144
/-- `sgb_flag` at 0x146. -/
def fieldSgb (s : State) : Option Byte := imgByte s 0x146
/-- `cartridge_type` at 0x147. -/
def fieldCtype (s : State) : Option Byte := imgByte s 0x147
/-- `rom_size` at 0x148. -/
def fieldRomsz (s : State) : Option Byte := imgByte s 0x148
/-- `ram_size` at 0x149. -/
def fieldRamsz (s : State) : Option Byte := imgByte s 0x149
/-- `destination_code` at 0x14A. -/
def fieldDest (s : State) : Option Byte := imgByte s 0x14A
/-- `old_licensee_code` at 0x14B; no lookup ever uses it (R92). -/
def fieldOldlic (s : State) : Option Byte := imgByte s 0x14B
/-- `mask_rom_version_number` at 0x14C. -/
def fieldVersion (s : State) : Option Byte := imgByte s 0x14C
/-- `header_checksum` at 0x14D. -/
def fieldHchk (s : State) : Option Byte := imgByte s ckStored
/-- `global_checksum`: big-endian at 0x14E; never verified (R125). -/
def fieldGchk (s : State) : Option Half := imgHalf be16 s 0x14E

/-- The extraction of all 13 fields together (41_header_view.md R111). -/
def extractHeader (s : State) : Option RomHeader := do
  let entry ← fieldEntry s
  let logo ← fieldLogo s
  let title ← fieldTitle s
  let licensee ← fieldLicensee s
  let sgb ← fieldSgb s
  let ctype ← fieldCtype s
  let romsz ← fieldRomsz s
  let ramsz ← fieldRamsz s
  let dest ← fieldDest s
  let oldlic ← fieldOldlic s
  let version ← fieldVersion s
  let hchk ← fieldHchk s
  let gchk ← fieldGchk s
  pure
    { entryPoint := entry, logo := logo, title := title, licenseeCode := licensee, sgbFlag := sgb,
      cartridgeType := ctype, romSize := romsz, ramSize := ramsz, destinationCode := dest,
      oldLicenseeCode := oldlic, maskRomVersionNumber := version, headerChecksum := hchk,
      globalChecksum := gchk }

/-- The header view: "optional RomHeader", without a value while `PARSED = 0` (R12, R27). -/
def headerView (s : State) : Option RomHeader := if s.parsed then extractHeader s else none

/-- The title text (R63, R113): byte 15 of a COPY forced to zero (90_conflicts.md C6), then the bytes before the
first zero, unchanged and untrimmed (C2, C3). -/
def titleTextOf (t : List Byte) : Str := (t.set 15 0).takeWhile (fun b => b != 0)

end Sys2Proof.Machine
end

