-- ==== Sys2Proof/Machine/Flags.lean ====
section
/-! DEFINITION. Flag computations: the header checksum and its comparison (42_checksum_validator.md R131 to R133)
and the packed `STATUS` view (10_state.md R23). -/

namespace Sys2Proof.Machine

/-- One step of the scan: `(acc - byte - 1) mod 256`, no borrow kept (R132). -/
def ckStep (acc b : Byte) : Byte := acc - b - 1

/-- `checksum_scan` over the scanned bytes in ascending order, from `acc = 0` (R131; 10_state.md R24 allows the
fold). -/
def checksumScan (bs : List Byte) : Byte := bs.foldl ckStep 0

/-- The raw bytes the scan reads: 25 from 0x134 (R131; 90_conflicts.md C1, C6). -/
def scannedBytes (s : State) : Option (List Byte) := memRead s ckFirst ckCount

/-- `CK_COMPUTED` and `CK_PASSED` for the current image: the scan, and whether it equals the stored byte (R131,
R133). -/
def checksumOf (s : State) : Option ChecksumResult :=
  match scannedBytes s, fieldHchk s with
  | some bs, some stored => some { computed := checksumScan bs, passed := checksumScan bs == stored }
  | _, _ => none

/-- Write a checksum result and mark it done (R18, R19). -/
def State.setDone (r : ChecksumResult) (s : State) : State := s.setChecksum r.computed r.passed true

/-- `CK_DONE <- 0 ; CK_PASSED <- 0 ; CK_COMPUTED <- 0` (R17 to R19). -/
def State.clearChecksum (s : State) : State := s.setChecksum 0 false false

/-- The Checksum Result of R9 as a value: it has none while `CK_DONE = 0` (R27). -/
def checksumResult (s : State) : Option ChecksumResult :=
  if s.ckDone then some { computed := s.ckComputed, passed := s.ckPassed } else none

/-- `STATUS`: `ERR` in 7:4, bit 3 zero, `CK_PASSED`, `CK_DONE`, `PARSED` in bits 2, 1, 0 (R23). -/
def status (s : State) : Byte :=
  s.err.code ++ 0#1 ++ BitVec.ofBool s.ckPassed ++ BitVec.ofBool s.ckDone ++ BitVec.ofBool s.parsed

end Sys2Proof.Machine
end

