-- ==== Sys2Proof/Machine/Boundary.lean ====
section
/-! DEFINITION. The boundary command `LOAD` (44_load_cartridge.md): Header View, then Checksum Validator. -/

namespace Sys2Proof.Machine

/-- `LOAD` (R160, R161): one length check, then the parse, then the scan. -/
def execLoad (s : State) : Answer :=
  if s.len < minLen then raise .truncatedImage (s.setParsed false).clearChecksum
  else withImage (checksumOf s) ckFirst fun r => succeed .none ((s.setParsed true).setDone r)

end Sys2Proof.Machine
end

