-- ==== Sys2Proof/Machine/Checksum.lean ====
section
/-! DEFINITION. The Checksum Validator's command (42_checksum_validator.md): `VALIDATE`. -/

namespace Sys2Proof.Machine

/-- `VALIDATE` (R130): it does not read `PARSED`, and a mismatch is not an error (R135). -/
def execValidate (s : State) : Answer :=
  if s.len < minLen then raise .truncatedImage s.clearChecksum
  else withImage (checksumOf s) ckFirst fun r => succeed .none (s.setDone r)

end Sys2Proof.Machine
end

