-- ==== Sys2Proof/Machine/Tables.lean ====
section
/-! DEFINITION. The Lookup Tables (40_lookup_tables.md): four pure, total functions of the code and the
configuration (R90). The entries the source pins stand here; the others are Sys2Proof/Config.lean's. -/

namespace Sys2Proof.Machine

/-! The quoted strings as the ASCII bytes 30_encoding.md R76 writes out (log entry 10). -/

/-- `"ROM ONLY"`. -/
def strRomOnly : Str := [0x52, 0x4F, 0x4D, 0x20, 0x4F, 0x4E, 0x4C, 0x59]
/-- `"MBC1"`. -/
def strMbc1 : Str := [0x4D, 0x42, 0x43, 0x31]
/-- `"None"`. -/
def strNone : Str := [0x4E, 0x6F, 0x6E, 0x65]
/-- `"Nintendo"`. -/
def strNintendo : Str := [0x4E, 0x69, 0x6E, 0x74, 0x65, 0x6E, 0x64, 0x6F]
/-- `"UNKNOWN"`. -/
def strUnknown : Str := [0x55, 0x4E, 0x4B, 0x4E, 0x4F, 0x57, 0x4E]

/-- `ROM_CODE_MAX` (R4). -/
def romCodeMax : Nat := 8
/-- `RAM_TABLE`, in KiB (R4, R95; not sorted). -/
def ramTable : List Half := [0, 0, 8, 32, 128, 64]

/-- `CTYPE_TABLE`: two pinned entries, 33 of the configuration, no holes (R5, R91). -/
def ctypeTable (i : Fin 35) : Str :=
  if i = 0 then strRomOnly else if i = 1 then strMbc1 else Config.ctypeOpen i

/-- `LIC_TABLE`: defined at 0x00 and 0x31, not defined at 0x02, elsewhere the configuration's (R5, R92). -/
def licTable (k : Fin 165) : Option Str :=
  if k = 0x00 then some strNone
  else if k = 0x31 then some strNintendo
  else if k = 0x02 then none
  else Config.licOpen k

/-- `ctype_lookup` (R91). -/
def ctypeLookup (code : Byte) : Except ErrKind Str :=
  if h : code.toNat < 35 then .ok (ctypeTable ⟨code.toNat, h⟩) else .error .unsupportedCartridgeType

/-- `lic_lookup` on the whole 16-bit key (R92, 90_conflicts.md C4); it never fails. -/
def licLookup (key : Half) : Str :=
  if h : key.toNat < 165 then (licTable ⟨key.toNat, h⟩).getD strUnknown else strUnknown

/-- `rom_kib`: `32 * 2^code` KiB for codes 0..8 (R93). -/
def romKib (code : Byte) : Except ErrKind Half :=
  if code.toNat > romCodeMax then .error .unsupportedRomSize else .ok (BitVec.ofNat 16 (32 * 2 ^ code.toNat))

/-- `ram_kib`: `RAM_TABLE[code]` for codes 0..5, never read out of bounds (R95). -/
def ramKib (code : Byte) : Except ErrKind Half :=
  match ramTable[code.toNat]? with
  | some k => .ok k
  | none => .error .unsupportedRamSize

end Sys2Proof.Machine
end

