-- ==== Sys2Proof/Machine/Facade.lean ====
section
/-! DEFINITION. The Decoder Façade (43_decoder_facade.md): four commands, each reading one header field and calling
one lookup (R140). -/

namespace Sys2Proof.Machine

/-- `CTYPE_NAME` (R141). -/
def execCtypeName (s : State) : Answer :=
  withHeader s fun s => withImage (fieldCtype s) 0x147 fun code => finishLookup (ctypeLookup code) .text s

/-- `LICENSEE_NAME` (R142): with a header it never fails. -/
def execLicenseeName (s : State) : Answer :=
  withHeader s fun s => withImage (fieldLicensee s) 0x144 fun key => succeed (.text (licLookup key)) s

/-- `ROM_SIZE_KIB` (R143). -/
def execRomSizeKib (s : State) : Answer :=
  withHeader s fun s => withImage (fieldRomsz s) 0x148 fun code => finishLookup (romKib code) .int s

/-- `RAM_SIZE_KIB` (R144). -/
def execRamSizeKib (s : State) : Answer :=
  withHeader s fun s => withImage (fieldRamsz s) 0x149 fun code => finishLookup (ramKib code) .int s

end Sys2Proof.Machine
end

