-- ==== Sys2Proof/Machine/HeaderView.lean ====
section
/-! DEFINITION. The Header View's commands (41_header_view.md): `PARSE` and `TITLE_TEXT`. -/

namespace Sys2Proof.Machine

/-- `PARSE` (R110): the length check and nothing else (R114). -/
def execParse (s : State) : Answer :=
  if s.len < minLen then raise .truncatedImage (s.setParsed false)
  else succeed .none (s.setParsed true)

/-- `TITLE_TEXT` (R112). -/
def execTitleText (s : State) : Answer :=
  withHeader s fun s => withImage (fieldTitle s) 0x134 fun t => succeed (.text (titleTextOf t)) s

end Sys2Proof.Machine
end

