-- ==== Sys2Proof/Machine/Dispatch.lean ====
section
/-! DEFINITION. One arm per command (30_encoding.md R70). -/

namespace Sys2Proof.Machine

def exec (i : Instr) (s : State) : Host.Outcome State Fault Refusal :=
  match i with
  | .parse => Sys2Proof.Machine.execParse s
  | .validate => Sys2Proof.Machine.execValidate s
  | .ctypeName => Sys2Proof.Machine.execCtypeName s
  | .licenseeName => Sys2Proof.Machine.execLicenseeName s
  | .romSizeKib => Sys2Proof.Machine.execRomSizeKib s
  | .ramSizeKib => Sys2Proof.Machine.execRamSizeKib s
  | .load => Sys2Proof.Machine.execLoad s
  | .titleText => Sys2Proof.Machine.execTitleText s

end Sys2Proof.Machine
end

