-- ==== Sys2Proof/Machine/HostActions.lean ====
section
/-! DEFINITION. What the host's operations do: the `CMD` write (10_state.md R22), `HostLoadImage` (R31), `HostReset`
(R32), register reads (R12, R27, R28), and the pseudo-operation `load_cartridge` (30_encoding.md R75). -/

namespace Sys2Proof.Machine

/-- A write of byte `c` to `CMD`: the command it selects runs to its end, or the byte is reserved (R22, R70, R72,
70_reset_and_hazards.md R197). -/
def writeCommand (c : Byte) (s : State) : Answer :=
  match decodeByte c with
  | .ok i => exec i s
  | .error _ => illegalCommand s

/-- `HostLoadImage(bytes)` (R31): replace the image and clear every result of the old one. -/
def hostLoadImage (bytes : List Byte) (s : State) : State :=
  (((s.setImage (Memory.ofBytes bytes) bytes.length).setParsed false).clearChecksum).setResult .ok .none

/-- `HostReset` (R32, R190): the eight elements of R10 take their R30 values; what the host has queued and read is
the host's own and stays (log entry 5). -/
def hostResetState (s : State) : State :=
  { State.reset with pending := s.pending, hostRead := s.hostRead }

/-- Hand a value to the host; reads have no side effect on the block (R28). -/
def deliver (v : HostValue) (s : State) : Answer := .next (s.setHostRead v)

/-- A read of header view `r` (R12): refused while `PARSED = 0` (R27). -/
def readView {α : Type} (r : HostReg) (a : Nat) (v : Option α) (toValue : α → HostValue) (s : State) : Answer :=
  if s.parsed then withImage v a fun x => deliver (toValue x) s else .refused (.viewUndefined r)

/-- A host read of a register (R28). -/
def hostReadReg (r : HostReg) (s : State) : Answer :=
  match r with
  | .status => deliver (.byte (status s)) s
  | .err => deliver (.nibble s.err.code) s
  | .res => deliver (.result s.res) s
  | .len => deliver (.count s.len) s
  | .ckComputed => deliver (.byte s.ckComputed) s
  | .ckPassed => deliver (.bit s.ckPassed) s
  | .ckDone => deliver (.bit s.ckDone) s
  | .parsed => deliver (.bit s.parsed) s
  | .headerValid => deliver (.bit s.ckPassed) s
  | .cmd => .refused (.writeOnly .cmd)
  | .hEntry => readView .hEntry 0x100 (fieldEntry s) .raw s
  | .hLogo => readView .hLogo 0x104 (fieldLogo s) .raw s
  | .hTitle => readView .hTitle 0x134 (fieldTitle s) .raw s
  | .hLicensee => readView .hLicensee 0x144 (fieldLicensee s) .half s
  | .hSgb => readView .hSgb 0x146 (fieldSgb s) .byte s
  | .hCtype => readView .hCtype 0x147 (fieldCtype s) .byte s
  | .hRomsz => readView .hRomsz 0x148 (fieldRomsz s) .byte s
  | .hRamsz => readView .hRamsz 0x149 (fieldRamsz s) .byte s
  | .hDest => readView .hDest 0x14A (fieldDest s) .byte s
  | .hOldlic => readView .hOldlic 0x14B (fieldOldlic s) .byte s
  | .hVersion => readView .hVersion 0x14C (fieldVersion s) .byte s
  | .hHchk => readView .hHchk 0x14D (fieldHchk s) .byte s
  | .hGchk => readView .hGchk 0x14E (fieldGchk s) .half s

/-- One operation of the host, run to its end (R197). -/
def runHostOp (op : HostOp) (s : State) : Answer :=
  match op with
  | .writeCmd c => writeCommand c s
  | .loadImage bytes => .next (hostLoadImage bytes s)
  | .hostReset => .next (hostResetState s)
  | .readReg r => hostReadReg r s

/-- The host's next move: the oldest queued operation, taken off the queue and run; with none queued the block
waits and nothing changes (R13, R48, 60_exceptions.md R178; log entries 1 and 2). -/
def runNextHostOp (s : State) : Answer :=
  match s.pending with
  | [] => .next s
  | op :: rest => runHostOp op (s.setPending rest)

/-- Queue a `CMD` write of `c` as the host's very next operation. -/
def queueCommand (c : Byte) (s : State) : State := s.setPending (.writeCmd c :: s.pending)

/-- The pseudo-operation `rom_size_bytes`: after `ROM_SIZE_KIB` the host multiplies the `Int` result by 1024 (30_encoding.md
R75, 90_conflicts.md C5). -/
def romSizeBytes (s : State) : Option Nat :=
  match s.res with
  | .int n => some (n.toNat * 1024)
  | .none => none
  | .text _ => none

/-- LoadResult after a successful `LOAD` (44_load_cartridge.md R162). -/
def loadResult (s : State) : Option LoadResult :=
  match headerView s, checksumResult s with
  | some h, some c => some { headerValid := s.ckPassed, header := h, checksum := c }
  | _, _ => none

/-- `load_cartridge(path)` as a whole, for either outcome of the host's file read (R75, 60_exceptions.md R172): a
failed read reports `IoError` and leaves the block as it was; a complete buffer is loaded and `LOAD` is run. -/
def loadCartridge (f : FileRead) (s : State) :
    Host.Outcome (Except ErrKind LoadResult × State) Fault Refusal :=
  match f with
  | .fail => .next (.error .ioError, s)
  | .complete bytes =>
    match execLoad (hostLoadImage bytes s) with
    | .next t =>
      match loadResult t with
      | some r => .next (.ok r, t)
      | none => .next (.error t.err, t)
    | .fault r => .fault r
    | .refused r => .refused r

end Sys2Proof.Machine
end

