-- ==== Sys2Proof/Machine/Step.lean ====
section
/-! DEFINITION. The step: one host operation, and with it one command, a step (70_reset_and_hazards.md R197). -/

namespace Sys2Proof.Machine

/-- One step of the machine. -/
def step (s : State) : Host.Outcome State Fault Refusal := runNextHostOp s

/-- `s` with the host about to write the command byte `w` to `CMD`: there is no program counter and no program
memory (10_state.md R13), so a command runs because the host writes it (log entry 3). -/
def State.withFetchWord (s : State) (_nbits w : Nat) : State := queueCommand (BitVec.ofNat 8 w) s

end Sys2Proof.Machine
end

