-- ==== Sys2Proof/Machine/Instances.lean ====
section
/-! DEFINITION. Several cartridges (60_exceptions.md R186, 10_state.md R33): n instances are the product of n
independent copies; the handle a caller passes is the choice of the instance. -/

namespace Sys2Proof.Machine

/-- One step of instance `k` among `n`. -/
def stepInstance {n : Nat} (k : Fin n) (sys : Vector State n) :
    Host.Outcome (Vector State n) Fault Refusal :=
  match step sys[k] with
  | .next t => .next (sys.set k t)
  | .fault r => .fault r
  | .refused r => .refused r

end Sys2Proof.Machine
end

