-- ==== Sys2Proof/Safety.lean ====
section
/-! DEFINITION. What holds in every state a run can reach, in the terms the claims use. -/

namespace Sys2Proof.Machine

/-- A long session (70_reset_and_hazards.md R193): the image holds a whole header. -/
abbrev State.long (s : State) : Prop := 0x150 ≤ s.len

/-- The invariant of the block. -/
structure State.Inv (s : State) : Prop where
  /-- `LEN` is the number of bytes in `IMG`, which has exactly the offsets 0..`LEN`-1 (10_state.md R14, R15). -/
  imageExact : s.img.map Prod.fst = List.range s.len
  /-- `PARSED = 1` implies `LEN >= 0x150` for the current image (20_memory.md R47). -/
  parsedLong : s.parsed = true → s.long
  /-- `CK_DONE = 1` implies that too (R18). -/
  doneLong : s.ckDone = true → s.long
  /-- While `CK_DONE = 1` the checksum registers are the function of `IMG` they are (10_state.md R18, R26). -/
  doneResult : s.ckDone = true → checksumOf s = some { computed := s.ckComputed, passed := s.ckPassed }
  /-- While `CK_DONE = 0` they read 0 (R17, R19). -/
  notDoneZero : s.ckDone = false → s.ckComputed = 0 ∧ s.ckPassed = false
  /-- The block never writes `ERR <- 1` (60_exceptions.md R172). -/
  noIoError : s.err ≠ .ioError
  /-- On error `RES` is `None` (10_state.md R21). -/
  errNoResult : s.err ≠ .ok → s.res = .none

/-- Every image the host has queued fits `LEN`, as R31 demands of the host, and `LEN` itself is below `2^LEN_W`
(10_state.md R15). -/
structure State.LenInWidth (s : State) : Prop where
  lenBelow : s.len < 2 ^ Config.lenW
  queuedFit : ∀ op ∈ s.pending, op.wf

/-- Two states hold the same header window 0x100..0x14F. -/
def State.SameWindow (s t : State) : Prop := ∀ a, 0x100 ≤ a → a < 0x150 → imgByte t a = imgByte s a

/-- The 13 fields of `h` are those of an image whose bytes are `byteAt` (10_state.md R12: offsets, widths and byte
orders, in the spec's arithmetic). -/
structure HeaderMatches (byteAt : Nat → Option Byte) (h : RomHeader) : Prop where
  entryPoint : h.entryPoint.length = 4 ∧ ∀ k, k < 4 → h.entryPoint[k]? = byteAt (0x100 + k)
  logo : h.logo.length = 48 ∧ ∀ k, k < 48 → h.logo[k]? = byteAt (0x104 + k)
  title : h.title.length = 16 ∧ ∀ k, k < 16 → h.title[k]? = byteAt (0x134 + k)
  licenseeCode : ∃ lo hi, byteAt 0x144 = some lo ∧ byteAt 0x145 = some hi ∧
    h.licenseeCode.toNat = lo.toNat + 256 * hi.toNat
  sgbFlag : byteAt 0x146 = some h.sgbFlag
  cartridgeType : byteAt 0x147 = some h.cartridgeType
  romSize : byteAt 0x148 = some h.romSize
  ramSize : byteAt 0x149 = some h.ramSize
  destinationCode : byteAt 0x14A = some h.destinationCode
  oldLicenseeCode : byteAt 0x14B = some h.oldLicenseeCode
  maskRomVersionNumber : byteAt 0x14C = some h.maskRomVersionNumber
  headerChecksum : byteAt 0x14D = some h.headerChecksum
  globalChecksum : ∃ hi lo, byteAt 0x14E = some hi ∧ byteAt 0x14F = some lo ∧
    h.globalChecksum.toNat = 256 * hi.toNat + lo.toNat

/-- The commands that write nothing but `ERR` and `RES` (43_decoder_facade.md R140, 41_header_view.md R112). -/
def readOnlyCommands : List Instr := [.ctypeName, .licenseeName, .romSizeKib, .ramSizeKib, .titleText]

/-- The commands one after the other, each on the state the one before it left (10_state.md R13). -/
def execAll : List Instr → State → Answer
  | [], s => .next s
  | i :: is, s =>
    match exec i s with
    | .next t => execAll is t
    | .fault r => .fault r
    | .refused r => .refused r

end Sys2Proof.Machine
end

