-- ==== Sys2Proof/Certificates/Slice0/Obligations.lean ====
section
/-! DEFINITION. The statements for the provers, from the spec's numbered rules. -/

open Sys2Proof Sys2Proof.Machine

/-! ## Decoding and the step -/

/-- R70: the eight command bytes, written out bit by bit, and the reserved ones. -/
def Obligations.CommandBytesDecode : Prop :=
  decodeByte 0b00000001#8 = .ok .parse ∧ decodeByte 0b00000010#8 = .ok .validate ∧
  decodeByte 0b00000011#8 = .ok .ctypeName ∧ decodeByte 0b00000100#8 = .ok .licenseeName ∧
  decodeByte 0b00000101#8 = .ok .romSizeKib ∧ decodeByte 0b00000110#8 = .ok .ramSizeKib ∧
  decodeByte 0b00000111#8 = .ok .load ∧ decodeByte 0b00001000#8 = .ok .titleText ∧
  ∀ c : Byte, c = 0x00 ∨ 0x09 ≤ c → decodeByte c = .error (.reservedCommand c)

/-- Decode and encode agree on every program: a byte sequence decodes to a list of commands exactly when it is their
encoding (R70, R71, R73: one byte a command, no byte with two meanings). -/
def Obligations.ProgramEncodingRoundTrip : Prop :=
  ∀ (bytes : List Byte) (is : List Instr), decodeProgram bytes = .ok is ↔ bytes = is.map encode

/-- R72: a reserved command byte executes no operation. -/
def Obligations.ReservedByteIsIllegal : Prop :=
  ErrKind.illegalCommand.code = 7 ∧
  ∀ (s : State) (c : Byte), c = 0x00 ∨ 0x09 ≤ c →
    writeCommand c s = .next { s with err := .illegalCommand, res := .none }

/-- A step runs the host's oldest queued operation, and a `CMD` write of a byte that decodes to `i` is `exec i` (R22,
R70, R197); the queue is the model's (log entry 1). -/
def Obligations.StepRunsDecodedCommand : Prop :=
  ∀ (s : State) (op : HostOp) (rest : List HostOp), s.pending = op :: rest →
    step s = runHostOp op { s with pending := rest } ∧
    ∀ (c : Byte) (i : Instr), op = .writeCmd c → decodeByte c = .ok i → step s = exec i { s with pending := rest }

/-- The command byte handed to the machine as a table word runs as the very next command (log entry 3). -/
def Obligations.FetchWordRunsItsCommand : Prop :=
  ∀ (s : State) (i : Instr), decodeTableWord 8 (encode i).toNat = some i ∧
    step (s.withFetchWord 8 (encode i).toNat) = exec i s

/-- R13, R48: commands run in the order the host issues them, each completely before the next
(the queue is the model's: log entry 1). -/
def Obligations.CommandsRunInHostOrder : Prop :=
  ∀ (p : List Instr) (s : State) (rest : List HostOp),
    s.pending = p.map (fun i => .writeCmd (encode i)) ++ rest →
    Host.Core.run Sys2Proof.core p.length s = execAll p { s with pending := rest }

/-- With no host operation the block waits and nothing changes (log entry 2, deduced from R170, R178). -/
def Obligations.WaitsForTheHost : Prop :=
  ∀ s : State, s.pending = [] → step s = .next s

/-! ## Header View -/

/-- R110: `PARSE`; the 13 header fields are defined exactly when it succeeds, together, each with its R12 value (R111). -/
def Obligations.ParseEffect : Prop :=
  decodeByte 0x01 = .ok .parse ∧ ErrKind.truncatedImage.code = 2 ∧ ErrKind.ok.code = 0 ∧
  ∀ s : State,
    (s.len < 0x150 →
      exec .parse s = .next { s with parsed := false, err := .truncatedImage, res := .none }) ∧
    (0x150 ≤ s.len → exec .parse s = .next { s with parsed := true, err := .ok, res := .none }) ∧
    (∀ t, s.Inv → exec .parse s = .next t →
      (t.err = .ok → ∃ h, headerView t = some h ∧ HeaderMatches (imgByte s) h) ∧
      (t.err ≠ .ok → headerView t = none))

/-- R114: `PARSE` validates nothing but the length, so no image content changes what it does. -/
def Obligations.ParseIgnoresContents : Prop :=
  ∀ (s t : State) (m : Memory), exec .parse s = .next t →
    exec .parse { s with img := m } = .next { t with img := m }

/-- R112: `TITLE_TEXT`. -/
def Obligations.TitleTextEffect : Prop :=
  decodeByte 0x08 = .ok .titleText ∧ ErrKind.noHeader.code = 6 ∧ ErrKind.ok.code = 0 ∧
  ∀ s : State,
    (s.parsed = false → exec .titleText s = .next { s with err := .noHeader, res := .none }) ∧
    (∀ t, s.parsed = true → memRead s 0x134 16 = some t →
      exec .titleText s = .next { s with err := .ok, res := .text (titleTextOf t) })

/-- R63, R113: the title text is the bytes before the first zero among bytes 0..14, at most 15 of them. -/
def Obligations.TitleTextEndsAtFirstZero : Prop :=
  ∀ t : List Byte, t.length = 16 →
    ∃ n, n ≤ 15 ∧ titleTextOf t = t.take n ∧ (∀ k, k < n → t[k]? ≠ some 0) ∧ (n < 15 → t[n]? = some 0)

/-! ## Checksum Validator -/

/-- R130: `VALIDATE`. -/
def Obligations.ValidateEffect : Prop :=
  decodeByte 0x02 = .ok .validate ∧ ErrKind.truncatedImage.code = 2 ∧ ErrKind.ok.code = 0 ∧
  ∀ s : State,
    (s.len < 0x150 →
      exec .validate s = .next { s with ckDone := false, ckPassed := false, ckComputed := 0,
                                        err := .truncatedImage, res := .none }) ∧
    (∀ (bs : List Byte) (stored : Byte), 0x150 ≤ s.len → memRead s 0x134 25 = some bs →
      imgByte s 0x14D = some stored →
      exec .validate s = .next { s with ckComputed := checksumScan bs,
                                        ckPassed := decide (checksumScan bs = stored), ckDone := true,
                                        err := .ok, res := .none })

/-- R131: the scan is the fold of `acc - byte - 1` over the 25 raw image bytes 0x134..0x14C in ascending order, from
zero, and it is the value `VALIDATE` leaves. -/
def Obligations.ScanCoversTwentyFiveBytes : Prop :=
  ∀ (s : State) (b : Nat → Byte) (stored : Byte), 0x150 ≤ s.len →
    (∀ a, 0x134 ≤ a → a ≤ 0x14C → imgByte s a = some (b a)) → imgByte s 0x14D = some stored →
    ∃ t, exec .validate s = .next t ∧
      t.ckComputed = (List.range' 0x134 25).foldl (fun acc a => acc - b a - 1) 0

/-- R132: one scan step, in exact integers. -/
def Obligations.ScanStepModulo256 : Prop :=
  ∀ acc b : Byte, ((ckStep acc b).toNat : Int) = ((acc.toNat : Int) - b.toNat - 1) % 256 ∧
    (ckStep acc b).toNat = (acc.toNat + (255 - b.toNat)) % 256

/-- R134: the closed form `(231 - S) mod 256`, so the order of the bytes does not matter. -/
def Obligations.ScanClosedForm : Prop :=
  ∀ bs : List Byte, bs.length = 25 →
    ((checksumScan bs).toNat : Int) = (231 - ((bs.map BitVec.toNat).sum : Int)) % 256 ∧
    ∀ cs : List Byte, cs.Perm bs → checksumScan cs = checksumScan bs

/-- R134: changing one scanned byte by `+d` changes the result by `-d`, so a single corrupted byte is detected. -/
def Obligations.SingleCorruptionDetected : Prop :=
  ∀ (bs : List Byte) (k : Nat) (b d : Byte), bs.length = 25 → bs[k]? = some b →
    checksumScan (bs.set k (b + d)) = checksumScan bs - d ∧
    (d ≠ 0 → checksumScan (bs.set k (b + d)) ≠ checksumScan bs)

/-- R175: on an image of sufficient length `VALIDATE` and `LOAD` end with `ERR = 0`, whatever the comparison gives;
neither clears `PARSED` (R135). -/
def Obligations.ChecksumMismatchIsNoError : Prop :=
  ∀ s : State, s.Inv → 0x150 ≤ s.len →
    (∃ t, exec .validate s = .next t ∧ t.err = .ok ∧ t.parsed = s.parsed ∧ t.ckDone = true ∧
      (t.ckPassed = true ↔ imgByte s 0x14D = some t.ckComputed)) ∧
    (∃ t, exec .load s = .next t ∧ t.err = .ok ∧ t.parsed = true ∧ t.ckDone = true ∧
      (t.ckPassed = true ↔ imgByte s 0x14D = some t.ckComputed))

/-- R135: no façade command and no `TITLE_TEXT` depends on the checksum registers. -/
def Obligations.QueriesIgnoreChecksum : Prop :=
  ∀ (i : Instr) (s t : State) (c : Byte) (p d : Bool), i ∈ readOnlyCommands → exec i s = .next t →
    exec i { s with ckComputed := c, ckPassed := p, ckDone := d } =
      .next { t with ckComputed := c, ckPassed := p, ckDone := d }

/-! ## Lookup Tables and Decoder Façade -/

/-- R91: the cartridge-type lookup, with the two pinned entries (ASCII bytes by R76: log entry 10) and the bound. -/
def Obligations.CtypeLookupDomain : Prop :=
  ctypeLookup 0x00 = .ok [0x52, 0x4F, 0x4D, 0x20, 0x4F, 0x4E, 0x4C, 0x59] ∧
  ctypeLookup 0x01 = .ok [0x4D, 0x42, 0x43, 0x31] ∧
  ∀ code : Byte,
    (0x23 ≤ code.toNat → ctypeLookup code = .error .unsupportedCartridgeType) ∧
    (∀ h : code.toNat < 35, ctypeLookup code = .ok (ctypeTable ⟨code.toNat, h⟩))

/-- R92: the licensee lookup never fails, on the whole 16-bit key (ASCII bytes by R76: log entry 10). -/
def Obligations.LicenseeLookupNeverFails : Prop :=
  licLookup 0x0000 = [0x4E, 0x6F, 0x6E, 0x65] ∧
  licLookup 0x0031 = [0x4E, 0x69, 0x6E, 0x74, 0x65, 0x6E, 0x64, 0x6F] ∧
  licLookup 0x0002 = strUnknown ∧ strUnknown = [0x55, 0x4E, 0x4B, 0x4E, 0x4F, 0x57, 0x4E] ∧
  ∀ key : Half,
    (0xA4 < key.toNat → licLookup key = strUnknown) ∧
    (∀ h : key.toNat < 165,
      (∀ name, licTable ⟨key.toNat, h⟩ = some name → licLookup key = name) ∧
      (licTable ⟨key.toNat, h⟩ = none → licLookup key = strUnknown))

/-- R93, R95: the two size lookups, in KiB. -/
def Obligations.SizeLookups : Prop :=
  ∀ code : Byte,
    (8 < code.toNat → romKib code = .error .unsupportedRomSize) ∧
    (code.toNat ≤ 8 → ∃ n, romKib code = .ok n ∧ n.toNat = 32 * 2 ^ code.toNat) ∧
    (5 < code.toNat → ramKib code = .error .unsupportedRamSize) ∧
    (code.toNat ≤ 5 → ∃ n, ramKib code = .ok n ∧ [0, 0, 8, 32, 128, 64][code.toNat]? = some n.toNat)

/-- R141: `CTYPE_NAME`. -/
def Obligations.CtypeNameEffect : Prop :=
  decodeByte 0x03 = .ok .ctypeName ∧ ErrKind.noHeader.code = 6 ∧
  ErrKind.unsupportedCartridgeType.code = 3 ∧ ErrKind.ok.code = 0 ∧
  ∀ s : State,
    (s.parsed = false → exec .ctypeName s = .next { s with err := .noHeader, res := .none }) ∧
    (∀ code, s.parsed = true → imgByte s 0x147 = some code →
      (0x23 ≤ code.toNat →
        exec .ctypeName s = .next { s with err := .unsupportedCartridgeType, res := .none }) ∧
      (∀ h : code.toNat < 35,
        exec .ctypeName s = .next { s with err := .ok, res := .text (ctypeTable ⟨code.toNat, h⟩) }))

/-- R142: `LICENSEE_NAME`. -/
def Obligations.LicenseeNameEffect : Prop :=
  decodeByte 0x04 = .ok .licenseeName ∧ ErrKind.noHeader.code = 6 ∧ ErrKind.ok.code = 0 ∧
  ∀ s : State,
    (s.parsed = false → exec .licenseeName s = .next { s with err := .noHeader, res := .none }) ∧
    (∀ (b0 b1 : Byte) (key : Half), s.parsed = true → imgByte s 0x144 = some b0 →
      imgByte s 0x145 = some b1 → key.toNat = b0.toNat + 256 * b1.toNat →
      exec .licenseeName s = .next { s with err := .ok, res := .text (licLookup key) })

/-- R143: `ROM_SIZE_KIB`. -/
def Obligations.RomSizeKibEffect : Prop :=
  decodeByte 0x05 = .ok .romSizeKib ∧ ErrKind.noHeader.code = 6 ∧
  ErrKind.unsupportedRomSize.code = 4 ∧ ErrKind.ok.code = 0 ∧
  ∀ s : State,
    (s.parsed = false → exec .romSizeKib s = .next { s with err := .noHeader, res := .none }) ∧
    (∀ code, s.parsed = true → imgByte s 0x148 = some code →
      (8 < code.toNat → exec .romSizeKib s = .next { s with err := .unsupportedRomSize, res := .none }) ∧
      (code.toNat ≤ 8 → ∃ n : Half, n.toNat = 32 * 2 ^ code.toNat ∧
        exec .romSizeKib s = .next { s with err := .ok, res := .int n }))

/-- R144: `RAM_SIZE_KIB`. -/
def Obligations.RamSizeKibEffect : Prop :=
  decodeByte 0x06 = .ok .ramSizeKib ∧ ErrKind.noHeader.code = 6 ∧
  ErrKind.unsupportedRamSize.code = 5 ∧ ErrKind.ok.code = 0 ∧
  ∀ s : State,
    (s.parsed = false → exec .ramSizeKib s = .next { s with err := .noHeader, res := .none }) ∧
    (∀ code, s.parsed = true → imgByte s 0x149 = some code →
      (5 < code.toNat → exec .ramSizeKib s = .next { s with err := .unsupportedRamSize, res := .none }) ∧
      (code.toNat ≤ 5 → ∃ n : Half, [0, 0, 8, 32, 128, 64][code.toNat]? = some n.toNat ∧
        exec .ramSizeKib s = .next { s with err := .ok, res := .int n }))

/-- R77: the integers a command can return, and which command returns them. -/
def Obligations.IntegerResultsListed : Prop :=
  ∀ (i : Instr) (s t : State) (n : Half), exec i s = .next t → t.res = .int n →
    (i = .romSizeKib ∧ n.toNat ∈ [32, 64, 128, 256, 512, 1024, 2048, 4096, 8192]) ∨
    (i = .ramSizeKib ∧ n.toNat ∈ [0, 8, 32, 64, 128])

/-! ## `LOAD` and the boundary operation -/

/-- R160: `LOAD`. -/
def Obligations.LoadEffect : Prop :=
  decodeByte 0x07 = .ok .load ∧ ErrKind.truncatedImage.code = 2 ∧ ErrKind.ok.code = 0 ∧
  ∀ s : State,
    (s.len < 0x150 →
      exec .load s = .next { s with parsed := false, ckDone := false, ckPassed := false, ckComputed := 0,
                                    err := .truncatedImage, res := .none }) ∧
    (∀ (bs : List Byte) (stored : Byte), 0x150 ≤ s.len → memRead s 0x134 25 = some bs →
      imgByte s 0x14D = some stored →
      exec .load s = .next { s with parsed := true, ckComputed := checksumScan bs,
                                    ckPassed := decide (checksumScan bs = stored), ckDone := true,
                                    err := .ok, res := .none })

/-- R161, R75: `LOAD` leaves exactly what `PARSE` followed by `VALIDATE` leaves, from every start state. -/
def Obligations.LoadIsParseThenValidate : Prop :=
  ∀ s : State, ∃ t, exec .parse s = .next t ∧ exec .load s = exec .validate t

/-- R162 and the end-to-end property S7: on a complete buffer of at least 0x150 bytes `load_cartridge` gives a
LoadResult whose every header field matches the buffer, whose checksum is the scan of the buffer's bytes, and whose
`header_valid` is the comparison's outcome; from every start state (log entry 15). -/
def Obligations.LoadCartridgeReturnsHeader : Prop :=
  ∀ (bytes : List Byte) (s : State), 0x150 ≤ bytes.length →
    ∃ r t, loadCartridge (.complete bytes) s = .next (.ok r, t) ∧
      HeaderMatches (fun a => bytes[a]?) r.header ∧
      r.checksum.computed = checksumScan ((bytes.drop 0x134).take 25) ∧
      (r.headerValid = true ↔ bytes[0x14D]? = some r.checksum.computed) ∧
      r.checksum.passed = r.headerValid ∧ t.ckPassed = r.headerValid ∧ t.err = .ok

/-- R172, R173: a failed file read reports `IoError` and leaves the block as it was; a truncated buffer reports
`TruncatedImage` and leaves neither a header nor a checksum result (log entry 15). -/
def Obligations.LoadCartridgeFailures : Prop :=
  ∀ s : State,
    loadCartridge .fail s = .next (.error .ioError, s) ∧
    ∀ bytes : List Byte, bytes.length < 0x150 →
      ∃ t, loadCartridge (.complete bytes) s = .next (.error .truncatedImage, t) ∧
        headerView t = none ∧ checksumResult t = none ∧ t.err = .truncatedImage

/-! ## Frames -/

/-- R140 (d), (e), R112: the façade commands and `TITLE_TEXT` write only `ERR` and `RES`; every image byte reads as
before, and the host's side (the model's own fields) is untouched. -/
def Obligations.QueryFrame : Prop :=
  ∀ (i : Instr) (s t : State), i ∈ readOnlyCommands → exec i s = .next t →
    t.len = s.len ∧ (∀ a, imgByte t a = imgByte s a) ∧ t.parsed = s.parsed ∧ t.ckDone = s.ckDone ∧
    t.ckPassed = s.ckPassed ∧ t.ckComputed = s.ckComputed ∧ t.pending = s.pending ∧ t.hostRead = s.hostRead

/-- R110, R130, R160, "Flags written": `PARSE` leaves the checksum registers, `VALIDATE` leaves `PARSED`; all three
leave every image byte, `LEN` and the host's side. -/
def Obligations.LengthCheckedFrame : Prop :=
  (∀ s t : State, exec .parse s = .next t →
    t.len = s.len ∧ (∀ a, imgByte t a = imgByte s a) ∧ t.ckDone = s.ckDone ∧ t.ckPassed = s.ckPassed ∧
    t.ckComputed = s.ckComputed ∧ t.pending = s.pending ∧ t.hostRead = s.hostRead) ∧
  (∀ s t : State, exec .validate s = .next t →
    t.len = s.len ∧ (∀ a, imgByte t a = imgByte s a) ∧ t.parsed = s.parsed ∧ t.pending = s.pending ∧
    t.hostRead = s.hostRead) ∧
  (∀ s t : State, exec .load s = .next t →
    t.len = s.len ∧ (∀ a, imgByte t a = imgByte s a) ∧ t.pending = s.pending ∧ t.hostRead = s.hostRead)

/-- R45: the block never writes `IMG`: no command byte, legal or reserved, changes the image or its length. -/
def Obligations.ImageImmutable : Prop :=
  ∀ (c : Byte) (s t : State), writeCommand c s = .next t →
    t.img = s.img ∧ t.len = s.len ∧ ∀ a, imgByte t a = imgByte s a

/-! ## Whole-machine rules -/

/-- R20: the numeric codes of the error kinds, no two alike. -/
def Obligations.ErrorCodes : Prop :=
  ErrKind.ok.code = 0 ∧ ErrKind.ioError.code = 1 ∧ ErrKind.truncatedImage.code = 2 ∧
  ErrKind.unsupportedCartridgeType.code = 3 ∧ ErrKind.unsupportedRomSize.code = 4 ∧
  ErrKind.unsupportedRamSize.code = 5 ∧ ErrKind.noHeader.code = 6 ∧ ErrKind.illegalCommand.code = 7 ∧
  ∀ e f : ErrKind, e.code = f.code → e = f

/-- R176: what `raise` does, and all it does. -/
def Obligations.RaiseWritesErrAndRes : Prop :=
  ∀ (e : ErrKind) (s : State), raise e s = .next { s with err := e, res := .none }

/-- R179: which error a command byte reports, in the rule's order, and that the command completes. -/
def Obligations.ErrorPriority : Prop :=
  ∀ (s : State) (c : Byte), s.Inv →
    ∃ t, writeCommand c s = .next t ∧
      (c = 0x00 ∨ 0x09 ≤ c → t.err = .illegalCommand) ∧
      (c = 0x01 ∨ c = 0x02 ∨ c = 0x07 → t.err = if s.len < 0x150 then .truncatedImage else .ok) ∧
      (c = 0x03 ∨ c = 0x04 ∨ c = 0x05 ∨ c = 0x06 ∨ c = 0x08 → s.parsed = false → t.err = .noHeader) ∧
      (c = 0x03 → s.parsed = true → ∀ b, imgByte s 0x147 = some b →
        t.err = if 0x23 ≤ b.toNat then .unsupportedCartridgeType else .ok) ∧
      (c = 0x05 → s.parsed = true → ∀ b, imgByte s 0x148 = some b →
        t.err = if 8 < b.toNat then .unsupportedRomSize else .ok) ∧
      (c = 0x06 → s.parsed = true → ∀ b, imgByte s 0x149 = some b →
        t.err = if 5 < b.toNat then .unsupportedRamSize else .ok) ∧
      (c = 0x04 ∨ c = 0x08 → s.parsed = true → t.err = .ok)

/-- R180: no command is undefined and the block cannot become stuck: in every state the invariant allows, every host
operation answers a next state, but for the reads that have no value (R27) or are forbidden (R22). -/
def Obligations.EveryOperationCompletes : Prop :=
  ∀ (s : State) (op : HostOp) (rest : List HostOp), s.Inv → s.pending = op :: rest →
    (∀ r, op = .readReg r → r ≠ .cmd ∧ (r.isHeaderView = true → s.parsed = true)) →
    ∃ t, step s = .next t

/-- Every step keeps the invariant of Sys2Proof/Safety.lean (R14, R15, R17 to R19, R21, R26, R47, R172). -/
def Obligations.StepKeepsInvariant : Prop :=
  ∀ s t : State, s.Inv → step s = .next t → t.Inv

/-- The invariant holds after reset. -/
def Obligations.ResetMeetsInvariant : Prop :=
  State.reset.Inv

/-- Every step keeps the image's canonical form, from every state that has it (the list form is the
model's: log entry 6). -/
def Obligations.StepKeepsCanonicalImage : Prop :=
  State.reset.img.wf ∧ ∀ s t : State, s.img.wf → step s = .next t → t.img.wf

/-- R15, R31: `LEN` stays below `2^LEN_W` as long as every image the host loads fits (log entry 7). -/
def Obligations.LenStaysInWidth : Prop :=
  State.reset.LenInWidth ∧ ∀ s t : State, s.LenInWidth → step s = .next t → t.LenInWidth

/-- R193: the flag transitions, complete, for every command byte. -/
def Obligations.FlagTransitions : Prop :=
  ∀ (s t : State) (c : Byte), s.Inv → writeCommand c s = .next t →
    (s.len < 0x150 → t.parsed = false ∧ t.ckDone = false) ∧
    (0x150 ≤ s.len →
      t.parsed = (s.parsed || c == 0x01 || c == 0x07) ∧ t.ckDone = (s.ckDone || c == 0x02 || c == 0x07)) ∧
    (s.ckDone = true → t.ckPassed = s.ckPassed ∧ t.ckComputed = s.ckComputed)

/-- A command issued again leaves the same state: R115 (`PARSE`), R136 (`VALIDATE`), R140 (façade), R163 (`LOAD`), R112
and R200 (`TITLE_TEXT`). -/
def Obligations.CommandsIdempotent : Prop :=
  ∀ (i : Instr) (s t : State), exec i s = .next t → exec i t = .next t

/-- R200: in a long session a command answers the same `ERR` and `RES` after any other command as it would have
answered before it. The one case apart is a read-only command before any header is parsed: `PARSE` or `LOAD` gives it
the header it needs (R140, R112). -/
def Obligations.AnswerUnaffectedByOtherCommand : Prop :=
  ∀ (i j : Instr) (s t u : State), 0x150 ≤ s.len →
    (i ∈ readOnlyCommands → s.parsed = true ∨ (j ≠ .parse ∧ j ≠ .load)) → exec j s = .next t →
    exec i s = .next u → ∃ v, exec i t = .next v ∧ v.err = u.err ∧ v.res = u.res

/-- R14: image bytes outside 0x100..0x14F, and how long a long image is (R15), influence no command. -/
def Obligations.BytesOutsideHeaderIrrelevant : Prop :=
  ∀ (i : Instr) (s t : State) (m : Memory) (n : Nat), (s.len < 0x150 ↔ n < 0x150) →
    s.SameWindow { s with img := m, len := n } → exec i s = .next t →
    exec i { s with img := m, len := n } = .next { t with img := m, len := n }

/-! ## Reset and the host -/

/-- R30: the reset value of every element, and that no view has a value. -/
def Obligations.ResetValues : Prop :=
  State.reset.len = 0 ∧ State.reset.img = [] ∧ (∀ a, imgByte State.reset a = none) ∧
  State.reset.parsed = false ∧ State.reset.ckDone = false ∧ State.reset.ckPassed = false ∧
  State.reset.ckComputed = 0x00 ∧ State.reset.err.code = 0 ∧ State.reset.res = .none ∧
  status State.reset = 0x00 ∧ headerView State.reset = none ∧ checksumResult State.reset = none

/-- R191: the commands straight after reset, and that no image byte can be read. -/
def Obligations.CommandsAfterReset : Prop :=
  exec .parse State.reset = .next { State.reset with err := .truncatedImage } ∧
  exec .validate State.reset = .next { State.reset with err := .truncatedImage } ∧
  exec .load State.reset = .next { State.reset with err := .truncatedImage } ∧
  (∀ i, i ∈ readOnlyCommands → exec i State.reset = .next { State.reset with err := .noHeader }) ∧
  (∀ c : Byte, c = 0x00 ∨ 0x09 ≤ c →
    writeCommand c State.reset = .next { State.reset with err := .illegalCommand }) ∧
  ∀ a, imgByte State.reset a = none

/-- R31: `HostLoadImage(bytes)`, of any finite length (log entry 7); that the image is in canonical form is the model's
(log entry 6); the host's queue and what it last read, the model's own fields, stay. -/
def Obligations.HostLoadImageEffect : Prop :=
  ∀ (s : State) (bytes : List Byte),
    ∃ t, runHostOp (.loadImage bytes) s = .next t ∧ t.len = bytes.length ∧ (∀ a, imgByte t a = bytes[a]?) ∧ t.img.wf ∧
      t.parsed = false ∧ t.ckDone = false ∧ t.ckPassed = false ∧ t.ckComputed = 0 ∧ t.err = .ok ∧
      t.res = .none ∧ t.pending = s.pending ∧ t.hostRead = s.hostRead

/-- R32: `HostReset` (the host's own side stays: log entry 5), and that it differs from `HostLoadImage([])` in
nothing. -/
def Obligations.HostResetEffect : Prop :=
  ∀ s : State,
    runHostOp .hostReset s = .next { State.reset with pending := s.pending, hostRead := s.hostRead } ∧
    runHostOp (.loadImage []) s = runHostOp .hostReset s

/-- R23: the bits of `STATUS`. -/
def Obligations.StatusBits : Prop :=
  ∀ s : State, (status s).getLsbD 0 = s.parsed ∧ (status s).getLsbD 1 = s.ckDone ∧
    (status s).getLsbD 2 = s.ckPassed ∧ (status s).getLsbD 3 = false ∧
    (status s).extractLsb' 4 4 = s.err.code

/-- R27, R22: an `H_*` read while `PARSED = 0` and a read of `CMD` (deduced: log entry 13) are refused; with `CK_DONE = 0` there is no checksum
result, though the registers read 0. -/
def Obligations.UndefinedReadsRefused : Prop :=
  ∀ (s : State) (r : HostReg),
    (r.isHeaderView = true → s.parsed = false → hostReadReg r s = .refused (.viewUndefined r)) ∧
    (r = .cmd → hostReadReg r s = .refused (.writeOnly .cmd)) ∧
    (s.Inv → s.ckDone = false → checksumResult s = none ∧ s.ckComputed = 0 ∧ s.ckPassed = false)

/-- R12: with a parsed header each view register reads as its field (`hostRead`, the model's: log entry 4). -/
def Obligations.ViewReadsGiveFields : Prop :=
  ∀ s : State, s.Inv → s.parsed = true →
    ∃ h, headerView s = some h ∧ HeaderMatches (imgByte s) h ∧
      hostReadReg .hEntry s = .next { s with hostRead := some (.raw h.entryPoint) } ∧
      hostReadReg .hLogo s = .next { s with hostRead := some (.raw h.logo) } ∧
      hostReadReg .hTitle s = .next { s with hostRead := some (.raw h.title) } ∧
      hostReadReg .hLicensee s = .next { s with hostRead := some (.half h.licenseeCode) } ∧
      hostReadReg .hSgb s = .next { s with hostRead := some (.byte h.sgbFlag) } ∧
      hostReadReg .hCtype s = .next { s with hostRead := some (.byte h.cartridgeType) } ∧
      hostReadReg .hRomsz s = .next { s with hostRead := some (.byte h.romSize) } ∧
      hostReadReg .hRamsz s = .next { s with hostRead := some (.byte h.ramSize) } ∧
      hostReadReg .hDest s = .next { s with hostRead := some (.byte h.destinationCode) } ∧
      hostReadReg .hOldlic s = .next { s with hostRead := some (.byte h.oldLicenseeCode) } ∧
      hostReadReg .hVersion s = .next { s with hostRead := some (.byte h.maskRomVersionNumber) } ∧
      hostReadReg .hHchk s = .next { s with hostRead := some (.byte h.headerChecksum) } ∧
      hostReadReg .hGchk s = .next { s with hostRead := some (.half h.globalChecksum) }

/-- R28: a register read changes nothing of the block, whatever the register; it only hands a value over
(`hostRead`, the model's: log entry 4). -/
def Obligations.HostReadsHaveNoSideEffect : Prop :=
  ∀ (s t : State) (r : HostReg), hostReadReg r s = .next t → ∃ v, t = { s with hostRead := some v }

/-- R20, R21, R15, R17 to R19, R23: what the plain registers read as; `HEADER_VALID` is `CK_PASSED`
(log entries 4 and 14). -/
def Obligations.PlainReadsGiveRegisters : Prop :=
  ∀ s : State,
    hostReadReg .status s = .next { s with hostRead := some (.byte (status s)) } ∧
    hostReadReg .err s = .next { s with hostRead := some (.nibble s.err.code) } ∧
    hostReadReg .res s = .next { s with hostRead := some (.result s.res) } ∧
    hostReadReg .len s = .next { s with hostRead := some (.count s.len) } ∧
    hostReadReg .ckComputed s = .next { s with hostRead := some (.byte s.ckComputed) } ∧
    hostReadReg .ckPassed s = .next { s with hostRead := some (.bit s.ckPassed) } ∧
    hostReadReg .ckDone s = .next { s with hostRead := some (.bit s.ckDone) } ∧
    hostReadReg .parsed s = .next { s with hostRead := some (.bit s.parsed) } ∧
    hostReadReg .headerValid s = hostReadReg .ckPassed s

/-- R186: instances share no state: a step of one is its own step and changes no other (log entry 16). -/
def Obligations.InstancesIndependent : Prop :=
  ∀ (n : Nat) (k : Fin n) (sys sys' : Vector State n), stepInstance k sys = .next sys' →
    step sys[k] = .next sys'[k] ∧ ∀ j : Fin n, j ≠ k → sys'[j] = sys[j]
end

