-- ==== Sys2Proof/Laws/State.lean ====
section
/-! SUPPORT. One lemma per field per update of State, so that no proof unfolds a record update. -/

namespace Sys2Proof.Machine.State

variable (s : State)

@[simp] theorem setImage_img (m : Memory) (n : Nat) : (s.setImage m n).img = m := rfl
@[simp] theorem setImage_len (m : Memory) (n : Nat) : (s.setImage m n).len = n := rfl
@[simp] theorem setImage_parsed (m : Memory) (n : Nat) : (s.setImage m n).parsed = s.parsed := rfl
@[simp] theorem setImage_ckComputed (m : Memory) (n : Nat) : (s.setImage m n).ckComputed = s.ckComputed := rfl
@[simp] theorem setImage_ckPassed (m : Memory) (n : Nat) : (s.setImage m n).ckPassed = s.ckPassed := rfl
@[simp] theorem setImage_ckDone (m : Memory) (n : Nat) : (s.setImage m n).ckDone = s.ckDone := rfl
@[simp] theorem setImage_err (m : Memory) (n : Nat) : (s.setImage m n).err = s.err := rfl
@[simp] theorem setImage_res (m : Memory) (n : Nat) : (s.setImage m n).res = s.res := rfl
@[simp] theorem setImage_pending (m : Memory) (n : Nat) : (s.setImage m n).pending = s.pending := rfl
@[simp] theorem setImage_hostRead (m : Memory) (n : Nat) : (s.setImage m n).hostRead = s.hostRead := rfl

@[simp] theorem setParsed_img (b : Bool) : (s.setParsed b).img = s.img := rfl
@[simp] theorem setParsed_len (b : Bool) : (s.setParsed b).len = s.len := rfl
@[simp] theorem setParsed_parsed (b : Bool) : (s.setParsed b).parsed = b := rfl
@[simp] theorem setParsed_ckComputed (b : Bool) : (s.setParsed b).ckComputed = s.ckComputed := rfl
@[simp] theorem setParsed_ckPassed (b : Bool) : (s.setParsed b).ckPassed = s.ckPassed := rfl
@[simp] theorem setParsed_ckDone (b : Bool) : (s.setParsed b).ckDone = s.ckDone := rfl
@[simp] theorem setParsed_err (b : Bool) : (s.setParsed b).err = s.err := rfl
@[simp] theorem setParsed_res (b : Bool) : (s.setParsed b).res = s.res := rfl
@[simp] theorem setParsed_pending (b : Bool) : (s.setParsed b).pending = s.pending := rfl
@[simp] theorem setParsed_hostRead (b : Bool) : (s.setParsed b).hostRead = s.hostRead := rfl

@[simp] theorem setChecksum_img (c : Byte) (p d : Bool) : (s.setChecksum c p d).img = s.img := rfl
@[simp] theorem setChecksum_len (c : Byte) (p d : Bool) : (s.setChecksum c p d).len = s.len := rfl
@[simp] theorem setChecksum_parsed (c : Byte) (p d : Bool) : (s.setChecksum c p d).parsed = s.parsed := rfl
@[simp] theorem setChecksum_ckComputed (c : Byte) (p d : Bool) : (s.setChecksum c p d).ckComputed = c := rfl
@[simp] theorem setChecksum_ckPassed (c : Byte) (p d : Bool) : (s.setChecksum c p d).ckPassed = p := rfl
@[simp] theorem setChecksum_ckDone (c : Byte) (p d : Bool) : (s.setChecksum c p d).ckDone = d := rfl
@[simp] theorem setChecksum_err (c : Byte) (p d : Bool) : (s.setChecksum c p d).err = s.err := rfl
@[simp] theorem setChecksum_res (c : Byte) (p d : Bool) : (s.setChecksum c p d).res = s.res := rfl
@[simp] theorem setChecksum_pending (c : Byte) (p d : Bool) : (s.setChecksum c p d).pending = s.pending := rfl
@[simp] theorem setChecksum_hostRead (c : Byte) (p d : Bool) : (s.setChecksum c p d).hostRead = s.hostRead := rfl

@[simp] theorem setResult_img (e : ErrKind) (r : Res) : (s.setResult e r).img = s.img := rfl
@[simp] theorem setResult_len (e : ErrKind) (r : Res) : (s.setResult e r).len = s.len := rfl
@[simp] theorem setResult_parsed (e : ErrKind) (r : Res) : (s.setResult e r).parsed = s.parsed := rfl
@[simp] theorem setResult_ckComputed (e : ErrKind) (r : Res) : (s.setResult e r).ckComputed = s.ckComputed := rfl
@[simp] theorem setResult_ckPassed (e : ErrKind) (r : Res) : (s.setResult e r).ckPassed = s.ckPassed := rfl
@[simp] theorem setResult_ckDone (e : ErrKind) (r : Res) : (s.setResult e r).ckDone = s.ckDone := rfl
@[simp] theorem setResult_err (e : ErrKind) (r : Res) : (s.setResult e r).err = e := rfl
@[simp] theorem setResult_res (e : ErrKind) (r : Res) : (s.setResult e r).res = r := rfl
@[simp] theorem setResult_pending (e : ErrKind) (r : Res) : (s.setResult e r).pending = s.pending := rfl
@[simp] theorem setResult_hostRead (e : ErrKind) (r : Res) : (s.setResult e r).hostRead = s.hostRead := rfl

@[simp] theorem setPending_img (l : List HostOp) : (s.setPending l).img = s.img := rfl
@[simp] theorem setPending_len (l : List HostOp) : (s.setPending l).len = s.len := rfl
@[simp] theorem setPending_parsed (l : List HostOp) : (s.setPending l).parsed = s.parsed := rfl
@[simp] theorem setPending_ckComputed (l : List HostOp) : (s.setPending l).ckComputed = s.ckComputed := rfl
@[simp] theorem setPending_ckPassed (l : List HostOp) : (s.setPending l).ckPassed = s.ckPassed := rfl
@[simp] theorem setPending_ckDone (l : List HostOp) : (s.setPending l).ckDone = s.ckDone := rfl
@[simp] theorem setPending_err (l : List HostOp) : (s.setPending l).err = s.err := rfl
@[simp] theorem setPending_res (l : List HostOp) : (s.setPending l).res = s.res := rfl
@[simp] theorem setPending_pending (l : List HostOp) : (s.setPending l).pending = l := rfl
@[simp] theorem setPending_hostRead (l : List HostOp) : (s.setPending l).hostRead = s.hostRead := rfl

@[simp] theorem setHostRead_img (v : HostValue) : (s.setHostRead v).img = s.img := rfl
@[simp] theorem setHostRead_len (v : HostValue) : (s.setHostRead v).len = s.len := rfl
@[simp] theorem setHostRead_parsed (v : HostValue) : (s.setHostRead v).parsed = s.parsed := rfl
@[simp] theorem setHostRead_ckComputed (v : HostValue) : (s.setHostRead v).ckComputed = s.ckComputed := rfl
@[simp] theorem setHostRead_ckPassed (v : HostValue) : (s.setHostRead v).ckPassed = s.ckPassed := rfl
@[simp] theorem setHostRead_ckDone (v : HostValue) : (s.setHostRead v).ckDone = s.ckDone := rfl
@[simp] theorem setHostRead_err (v : HostValue) : (s.setHostRead v).err = s.err := rfl
@[simp] theorem setHostRead_res (v : HostValue) : (s.setHostRead v).res = s.res := rfl
@[simp] theorem setHostRead_pending (v : HostValue) : (s.setHostRead v).pending = s.pending := rfl
@[simp] theorem setHostRead_hostRead (v : HostValue) : (s.setHostRead v).hostRead = some v := rfl

/-! The two checksum updates that commands use, in terms of `setChecksum`. -/

theorem setDone_eq (r : ChecksumResult) : s.setDone r = s.setChecksum r.computed r.passed true := rfl

theorem clearChecksum_eq : s.clearChecksum = s.setChecksum 0 false false := rfl

/-- Two states with equal fields are equal. -/
theorem ext_fields {s t : State} (himg : s.img = t.img) (hlen : s.len = t.len) (hparsed : s.parsed = t.parsed)
    (hc : s.ckComputed = t.ckComputed) (hp : s.ckPassed = t.ckPassed) (hd : s.ckDone = t.ckDone)
    (herr : s.err = t.err) (hres : s.res = t.res) (hpend : s.pending = t.pending)
    (hread : s.hostRead = t.hostRead) : s = t := by
  cases s; cases t; simp_all

end Sys2Proof.Machine.State
end

