-- ==== Sys2Proof/Laws/Ops.lean ====
section
/-! SUPPORT. What each shared operation can do, once: image reads, image loads, the ways a command ends, the
scan and the lookups. Proofs about commands cite these instead of unfolding the operations. -/

namespace Sys2Proof.Machine

/-! The image as a list of cells. -/

theorem Memory.read_isSome_iff (m : Memory) (a : Nat) :
    (m.read a).isSome = true ↔ a ∈ m.map Prod.fst := by
  induction m with
  | nil => simp [Memory.read]
  | cons c rest ih =>
    obtain ⟨k, v⟩ := c
    by_cases h : a = k
    · simp [Memory.read, h]
    · simpa [Memory.read, h] using ih

theorem Memory.map_fst_ofBytesFrom (base : Nat) (bytes : List Byte) :
    (Memory.ofBytesFrom base bytes).map Prod.fst = List.range' base bytes.length := by
  induction bytes generalizing base with
  | nil => rfl
  | cons b bs ih => simp [Memory.ofBytesFrom, ih, List.range'_succ]

theorem Memory.map_fst_ofBytes (bytes : List Byte) :
    (Memory.ofBytes bytes).map Prod.fst = List.range bytes.length := by
  rw [Memory.ofBytes, Memory.map_fst_ofBytesFrom, List.range_eq_range']

/-- The one operation that writes the image builds the canonical form. -/
theorem Memory.ofBytes_wf (bytes : List Byte) : (Memory.ofBytes bytes).wf := by
  rw [Memory.wf, Memory.map_fst_ofBytes]
  exact List.pairwise_lt_range

/-- An image with exactly the offsets below a length is canonical. -/
theorem Memory.wf_of_exact {m : Memory} {n : Nat} (h : m.map Prod.fst = List.range n) : m.wf := by
  rw [Memory.wf, h]
  exact List.pairwise_lt_range

theorem Memory.read_ofBytesFrom (base : Nat) (bytes : List Byte) (k : Nat) :
    (Memory.ofBytesFrom base bytes).read (base + k) = bytes[k]? := by
  induction bytes generalizing base k with
  | nil => rfl
  | cons b bs ih =>
    cases k with
    | zero => simp [Memory.ofBytesFrom, Memory.read]
    | succ k => simpa [Memory.ofBytesFrom, Memory.read, Nat.add_assoc, Nat.add_comm 1 k] using ih (base + 1) k

/-- A read after a load gives the loaded byte, and none outside it. -/
theorem Memory.read_ofBytes (bytes : List Byte) (a : Nat) : (Memory.ofBytes bytes).read a = bytes[a]? := by
  have h := Memory.read_ofBytesFrom 0 bytes a
  rwa [Nat.zero_add] at h

/-! Reading the image of a state. -/

theorem imgByte_congr {s t : State} (himg : t.img = s.img) (hlen : t.len = s.len) (a : Nat) :
    imgByte t a = imgByte s a := by
  simp only [imgByte, himg, hlen]

theorem imgByte_eq_none_of_le {s : State} {a : Nat} (h : s.len ≤ a) : imgByte s a = none := by
  simp [imgByte, Nat.not_lt.mpr h]

theorem imgByte_setImage_ofBytes (bytes : List Byte) (s : State) (a : Nat) :
    imgByte (s.setImage (Memory.ofBytes bytes) bytes.length) a = bytes[a]? := by
  simp only [imgByte, State.setImage_len, State.setImage_img, Memory.read_ofBytes]
  split
  · rfl
  · rename_i h; rw [List.getElem?_eq_none (Nat.le_of_not_lt h)]

/-- In an exact image every offset below `LEN` has a byte. -/
theorem imgByte_isSome_of_exact {s : State} (h : s.img.map Prod.fst = List.range s.len) {a : Nat}
    (ha : a < s.len) : ∃ b, imgByte s a = some b := by
  have : (s.img.read a).isSome = true := by rw [Memory.read_isSome_iff, h]; exact List.mem_range.mpr ha
  obtain ⟨b, hb⟩ := Option.isSome_iff_exists.mp this
  exact ⟨b, by simp [imgByte, ha, hb]⟩

/-- `MemRead` looks at its own offsets only. -/
theorem memRead_window {s t : State} {a n : Nat}
    (h : ∀ k, k < n → imgByte t (a + k) = imgByte s (a + k)) : memRead t a n = memRead s a n := by
  induction n generalizing a with
  | zero => rfl
  | succ n ih =>
    have h0 : imgByte t a = imgByte s a := by simpa using h 0 (by omega)
    have hs : memRead t (a + 1) n = memRead s (a + 1) n :=
      ih fun k hk => by simpa [Nat.add_assoc, Nat.add_comm 1 k] using h (k + 1) (by omega)
    simp only [memRead, h0, hs]

theorem memRead_congr {s t : State} (himg : t.img = s.img) (hlen : t.len = s.len) (a n : Nat) :
    memRead t a n = memRead s a n :=
  memRead_window fun k _ => imgByte_congr himg hlen (a + k)

/-- Everything a successful `MemRead` says. -/
theorem memRead_eq_some {s : State} {a n : Nat} {bs : List Byte} (h : memRead s a n = some bs) :
    bs.length = n ∧ ∀ k, k < n → imgByte s (a + k) = bs[k]? := by
  induction n generalizing a bs with
  | zero => simp [memRead] at h; subst h; simp
  | succ n ih =>
    simp only [memRead] at h
    split at h
    · rename_i b rest hb hrest
      obtain rfl : b :: rest = bs := Option.some.inj h
      obtain ⟨hl, hk⟩ := ih hrest
      refine ⟨by simp [hl], fun k hlt => ?_⟩
      cases k with
      | zero => simpa using hb
      | succ k => simpa [Nat.add_assoc, Nat.add_comm 1 k] using hk k (by omega)
    · cases h

/-- `MemRead` has a value where all its bytes exist. -/
theorem memRead_exists {s : State} {a n : Nat} (h : ∀ k, k < n → ∃ b, imgByte s (a + k) = some b) :
    ∃ bs, memRead s a n = some bs := by
  induction n generalizing a with
  | zero => exact ⟨[], rfl⟩
  | succ n ih =>
    obtain ⟨b, hb⟩ := h 0 (by omega)
    obtain ⟨bs, hbs⟩ := ih (a := a + 1) fun k hk => by
      simpa [Nat.add_assoc, Nat.add_comm 1 k] using h (k + 1) (by omega)
    exact ⟨b :: bs, by simp_all [memRead]⟩

theorem memRead_exists_of_exact {s : State} (h : s.img.map Prod.fst = List.range s.len) {a n : Nat}
    (ha : a + n ≤ s.len) : ∃ bs, memRead s a n = some bs :=
  memRead_exists fun k hk => imgByte_isSome_of_exact h (by omega)

/-- A state whose image reads as `bytes` gives, for `MemRead`, the slice of `bytes`. -/
theorem memRead_eq_slice {s : State} {bytes : List Byte} (h : ∀ a, imgByte s a = bytes[a]?) {a n : Nat}
    (ha : a + n ≤ bytes.length) : memRead s a n = some ((bytes.drop a).take n) := by
  induction n generalizing a with
  | zero => simp [memRead]
  | succ n ih =>
    have hb : imgByte s a = some bytes[a] := by rw [h, List.getElem?_eq_getElem (by omega)]
    have hcons : bytes.drop a = bytes[a] :: bytes.drop (a + 1) := List.drop_eq_getElem_cons (by omega)
    simp only [memRead, hb, ih (a := a + 1) (by omega), hcons, List.take_succ_cons]

theorem imgHalf_congr {s t : State} {a : Nat} (f : Byte → Byte → Half) (h0 : imgByte t a = imgByte s a)
    (h1 : imgByte t (a + 1) = imgByte s (a + 1)) : imgHalf f t a = imgHalf f s a := by
  simp only [imgHalf, h0, h1]

theorem checksumOf_congr {s t : State} (himg : t.img = s.img) (hlen : t.len = s.len) :
    checksumOf t = checksumOf s := by
  simp only [checksumOf, scannedBytes, fieldHchk, memRead_congr himg hlen, imgByte_congr himg hlen]

theorem extractHeader_congr {s t : State} (himg : t.img = s.img) (hlen : t.len = s.len) :
    extractHeader t = extractHeader s := by
  simp only [extractHeader, fieldEntry, fieldLogo, fieldTitle, fieldLicensee, fieldSgb, fieldCtype, fieldRomsz,
    fieldRamsz, fieldDest, fieldOldlic, fieldVersion, fieldHchk, fieldGchk, imgHalf, memRead_congr himg hlen,
    imgByte_congr himg hlen]

/-- The header is extracted exactly when each of its fields has its value. -/
theorem extractHeader_eq_some_iff (s : State) (h : RomHeader) :
    extractHeader s = some h ↔
      fieldEntry s = some h.entryPoint ∧
      fieldLogo s = some h.logo ∧
      fieldTitle s = some h.title ∧
      fieldLicensee s = some h.licenseeCode ∧
      fieldSgb s = some h.sgbFlag ∧
      fieldCtype s = some h.cartridgeType ∧
      fieldRomsz s = some h.romSize ∧
      fieldRamsz s = some h.ramSize ∧
      fieldDest s = some h.destinationCode ∧
      fieldOldlic s = some h.oldLicenseeCode ∧
      fieldVersion s = some h.maskRomVersionNumber ∧
      fieldHchk s = some h.headerChecksum ∧
      fieldGchk s = some h.globalChecksum := by
  constructor
  · intro hx
    unfold extractHeader at hx
    obtain ⟨a1, e1, hx⟩ := Option.bind_eq_some_iff.mp hx
    obtain ⟨a2, e2, hx⟩ := Option.bind_eq_some_iff.mp hx
    obtain ⟨a3, e3, hx⟩ := Option.bind_eq_some_iff.mp hx
    obtain ⟨a4, e4, hx⟩ := Option.bind_eq_some_iff.mp hx
    obtain ⟨a5, e5, hx⟩ := Option.bind_eq_some_iff.mp hx
    obtain ⟨a6, e6, hx⟩ := Option.bind_eq_some_iff.mp hx
    obtain ⟨a7, e7, hx⟩ := Option.bind_eq_some_iff.mp hx
    obtain ⟨a8, e8, hx⟩ := Option.bind_eq_some_iff.mp hx
    obtain ⟨a9, e9, hx⟩ := Option.bind_eq_some_iff.mp hx
    obtain ⟨a10, e10, hx⟩ := Option.bind_eq_some_iff.mp hx
    obtain ⟨a11, e11, hx⟩ := Option.bind_eq_some_iff.mp hx
    obtain ⟨a12, e12, hx⟩ := Option.bind_eq_some_iff.mp hx
    obtain ⟨a13, e13, hx⟩ := Option.bind_eq_some_iff.mp hx
    obtain rfl := Option.some.inj hx
    exact ⟨e1, e2, e3, e4, e5, e6, e7, e8, e9, e10, e11, e12, e13⟩
  · rintro ⟨e1, e2, e3, e4, e5, e6, e7, e8, e9, e10, e11, e12, e13⟩
    simp only [extractHeader, e1, e2, e3, e4, e5, e6, e7, e8, e9, e10, e11, e12, e13]; rfl

/-! How a command ends. -/

theorem raise_next {e : ErrKind} {s t : State} (h : raise e s = .next t) : t = s.setResult e .none :=
  (Host.Outcome.next.inj h).symm

theorem succeed_next {r : Res} {s t : State} (h : succeed r s = .next t) : t = s.setResult .ok r :=
  (Host.Outcome.next.inj h).symm

theorem withHeader_next {s t : State} {k : State → Answer} (h : withHeader s k = .next t) :
    (s.parsed = true ∧ k s = .next t) ∨ (s.parsed = false ∧ t = s.setResult .noHeader .none) := by
  unfold withHeader at h
  split at h
  · exact .inl ⟨‹_›, h⟩
  · rename_i hp; exact .inr ⟨Bool.eq_false_iff.mpr hp, raise_next h⟩

theorem withImage_next {α : Type} {v : Option α} {a : Nat} {k : α → Answer} {t : State}
    (h : withImage v a k = .next t) : ∃ x, v = some x ∧ k x = .next t := by
  cases v with
  | none => cases h
  | some x => exact ⟨x, rfl, h⟩

theorem finishLookup_next {α : Type} {v : Except ErrKind α} {f : α → Res} {s t : State}
    (h : finishLookup v f s = .next t) :
    (∃ x, v = .ok x ∧ t = s.setResult .ok (f x)) ∨ (∃ e, v = .error e ∧ t = s.setResult e .none) := by
  cases v with
  | ok x => exact .inl ⟨x, rfl, succeed_next h⟩
  | error e => exact .inr ⟨e, rfl, raise_next h⟩

/-! The scan. -/

theorem ckStep_eq (acc b : Byte) : ckStep acc b = acc - (b + 1) := by
  unfold ckStep; ring

theorem foldl_ckStep (bs : List Byte) (acc : Byte) :
    bs.foldl ckStep acc = acc - (bs.sum + BitVec.ofNat 8 bs.length) := by
  induction bs generalizing acc with
  | nil => simp
  | cons b bs ih =>
    have hlen : (BitVec.ofNat 8 (b :: bs).length : Byte) = BitVec.ofNat 8 bs.length + 1 := by
      simp [BitVec.ofNat_add]
    rw [List.foldl_cons, ih, ckStep_eq, List.sum_cons, hlen]; ring

/-! The lookups. -/

theorem ctypeLookup_error {code : Byte} {e : ErrKind} (h : ctypeLookup code = .error e) :
    e = .unsupportedCartridgeType ∧ 0x23 ≤ code.toNat := by
  unfold ctypeLookup at h
  split at h
  · cases h
  · exact ⟨(Except.error.inj h).symm, by omega⟩

theorem romKib_error {code : Byte} {e : ErrKind} (h : romKib code = .error e) :
    e = .unsupportedRomSize ∧ 8 < code.toNat := by
  unfold romKib romCodeMax at h
  split at h
  · exact ⟨(Except.error.inj h).symm, by omega⟩
  · cases h

theorem ramKib_error {code : Byte} {e : ErrKind} (h : ramKib code = .error e) :
    e = .unsupportedRamSize ∧ 5 < code.toNat := by
  unfold ramKib at h
  split at h
  · cases h
  · rename_i hnone
    have : 6 ≤ code.toNat := by simpa [ramTable] using List.getElem?_eq_none_iff.mp hnone
    exact ⟨(Except.error.inj h).symm, by omega⟩

end Sys2Proof.Machine
end

