-- ==== Sys2Proof/Laws/Exec.lean ====
section
/-! SUPPORT. What each command can do, once: if it answers a next state, then one of the listed cases holds. -/

namespace Sys2Proof.Machine

variable {s t : State}

theorem execParse_next (h : execParse s = .next t) :
    (s.len < minLen ∧ t = (s.setParsed false).setResult .truncatedImage .none) ∨
    (¬ s.len < minLen ∧ t = (s.setParsed true).setResult .ok .none) := by
  unfold execParse at h
  split at h
  · exact .inl ⟨‹_›, raise_next h⟩
  · exact .inr ⟨‹_›, succeed_next h⟩

theorem execValidate_next (h : execValidate s = .next t) :
    (s.len < minLen ∧ t = s.clearChecksum.setResult .truncatedImage .none) ∨
    (¬ s.len < minLen ∧ ∃ r, checksumOf s = some r ∧ t = (s.setDone r).setResult .ok .none) := by
  unfold execValidate at h
  split at h
  · exact .inl ⟨‹_›, raise_next h⟩
  · obtain ⟨r, hr, h⟩ := withImage_next h
    exact .inr ⟨‹_›, r, hr, succeed_next h⟩

theorem execLoad_next (h : execLoad s = .next t) :
    (s.len < minLen ∧ t = (s.setParsed false).clearChecksum.setResult .truncatedImage .none) ∨
    (¬ s.len < minLen ∧ ∃ r, checksumOf s = some r ∧ t = ((s.setParsed true).setDone r).setResult .ok .none) := by
  unfold execLoad at h
  split at h
  · exact .inl ⟨‹_›, raise_next h⟩
  · obtain ⟨r, hr, h⟩ := withImage_next h
    exact .inr ⟨‹_›, r, hr, succeed_next h⟩

theorem execTitleText_next (h : execTitleText s = .next t) :
    (s.parsed = false ∧ t = s.setResult .noHeader .none) ∨
    (s.parsed = true ∧ ∃ bs, fieldTitle s = some bs ∧ t = s.setResult .ok (.text (titleTextOf bs))) := by
  rcases withHeader_next h with ⟨hp, h⟩ | h
  · obtain ⟨bs, hbs, h⟩ := withImage_next h
    exact .inr ⟨hp, bs, hbs, succeed_next h⟩
  · exact .inl h

theorem execLicenseeName_next (h : execLicenseeName s = .next t) :
    (s.parsed = false ∧ t = s.setResult .noHeader .none) ∨
    (s.parsed = true ∧ ∃ key, fieldLicensee s = some key ∧ t = s.setResult .ok (.text (licLookup key))) := by
  rcases withHeader_next h with ⟨hp, h⟩ | h
  · obtain ⟨key, hkey, h⟩ := withImage_next h
    exact .inr ⟨hp, key, hkey, succeed_next h⟩
  · exact .inl h

theorem execCtypeName_next (h : execCtypeName s = .next t) :
    (s.parsed = false ∧ t = s.setResult .noHeader .none) ∨
    (s.parsed = true ∧ ∃ code, fieldCtype s = some code ∧
      ((∃ x, ctypeLookup code = .ok x ∧ t = s.setResult .ok (.text x)) ∨
       (∃ e, ctypeLookup code = .error e ∧ t = s.setResult e .none))) := by
  rcases withHeader_next h with ⟨hp, h⟩ | h
  · obtain ⟨code, hcode, h⟩ := withImage_next h
    exact .inr ⟨hp, code, hcode, finishLookup_next h⟩
  · exact .inl h

theorem execRomSizeKib_next (h : execRomSizeKib s = .next t) :
    (s.parsed = false ∧ t = s.setResult .noHeader .none) ∨
    (s.parsed = true ∧ ∃ code, fieldRomsz s = some code ∧
      ((∃ x, romKib code = .ok x ∧ t = s.setResult .ok (.int x)) ∨
       (∃ e, romKib code = .error e ∧ t = s.setResult e .none))) := by
  rcases withHeader_next h with ⟨hp, h⟩ | h
  · obtain ⟨code, hcode, h⟩ := withImage_next h
    exact .inr ⟨hp, code, hcode, finishLookup_next h⟩
  · exact .inl h

theorem execRamSizeKib_next (h : execRamSizeKib s = .next t) :
    (s.parsed = false ∧ t = s.setResult .noHeader .none) ∨
    (s.parsed = true ∧ ∃ code, fieldRamsz s = some code ∧
      ((∃ x, ramKib code = .ok x ∧ t = s.setResult .ok (.int x)) ∨
       (∃ e, ramKib code = .error e ∧ t = s.setResult e .none))) := by
  rcases withHeader_next h with ⟨hp, h⟩ | h
  · obtain ⟨code, hcode, h⟩ := withImage_next h
    exact .inr ⟨hp, code, hcode, finishLookup_next h⟩
  · exact .inl h

/-- A lookup's ending writes `ERR` and `RES` only, with `RES` empty on error, and never reports `IoError`. -/
theorem lookup_writes_result {α : Type} {v : Except ErrKind α} {f : α → Res}
    (hio : v ≠ .error .ioError) (h : (∃ x, v = .ok x ∧ t = s.setResult .ok (f x)) ∨
      (∃ e, v = .error e ∧ t = s.setResult e .none)) :
    ∃ e r, t = s.setResult e r ∧ e ≠ .ioError ∧ (e ≠ .ok → r = .none) := by
  rcases h with ⟨x, -, rfl⟩ | ⟨e, he, rfl⟩
  · exact ⟨.ok, f x, rfl, by decide, fun h => absurd rfl h⟩
  · exact ⟨e, .none, rfl, fun h => hio (h ▸ he), fun _ => rfl⟩

/-- The shape of every command's next state: `PARSED`, the checksum registers, `ERR` and `RES` are all it can
differ in. -/
theorem exec_next_shape {i : Instr} (h : exec i s = .next t) :
    ∃ p c cp cd e r, t = ((s.setParsed p).setChecksum c cp cd).setResult e r ∧ e ≠ .ioError ∧
      (e ≠ .ok → r = .none) := by
  have ofResult : (∃ e r, t = s.setResult e r ∧ e ≠ .ioError ∧ (e ≠ .ok → r = .none)) →
      ∃ p c cp cd e r, t = ((s.setParsed p).setChecksum c cp cd).setResult e r ∧ e ≠ .ioError ∧
        (e ≠ .ok → r = .none) := fun ⟨e, r, ht, he, hr⟩ =>
    ⟨s.parsed, s.ckComputed, s.ckPassed, s.ckDone, e, r, ht, he, hr⟩
  have ofOk : ∀ {r : Res}, t = s.setResult .ok r →
      ∃ e r, t = s.setResult e r ∧ e ≠ .ioError ∧ (e ≠ .ok → r = .none) := fun {r} ht =>
    ⟨.ok, r, ht, by decide, fun h => absurd rfl h⟩
  have ofNoHeader : t = s.setResult .noHeader .none →
      ∃ e r, t = s.setResult e r ∧ e ≠ .ioError ∧ (e ≠ .ok → r = .none) := fun ht =>
    ⟨.noHeader, .none, ht, by decide, fun _ => rfl⟩
  cases i with
  | parse =>
    rcases execParse_next h with ⟨-, rfl⟩ | ⟨-, rfl⟩
    · exact ⟨false, s.ckComputed, s.ckPassed, s.ckDone, _, _, rfl, by decide, fun _ => rfl⟩
    · exact ⟨true, s.ckComputed, s.ckPassed, s.ckDone, _, _, rfl, by decide, fun _ => rfl⟩
  | validate =>
    rcases execValidate_next h with ⟨-, rfl⟩ | ⟨-, r, -, rfl⟩
    · exact ⟨s.parsed, 0, false, false, _, _, rfl, by decide, fun _ => rfl⟩
    · exact ⟨s.parsed, r.computed, r.passed, true, _, _, rfl, by decide, fun _ => rfl⟩
  | load =>
    rcases execLoad_next h with ⟨-, rfl⟩ | ⟨-, r, -, rfl⟩
    · exact ⟨false, 0, false, false, _, _, rfl, by decide, fun _ => rfl⟩
    · exact ⟨true, r.computed, r.passed, true, _, _, rfl, by decide, fun _ => rfl⟩
  | titleText =>
    rcases execTitleText_next h with ⟨-, ht⟩ | ⟨-, bs, -, ht⟩
    · exact ofResult (ofNoHeader ht)
    · exact ofResult (ofOk ht)
  | licenseeName =>
    rcases execLicenseeName_next h with ⟨-, ht⟩ | ⟨-, key, -, ht⟩
    · exact ofResult (ofNoHeader ht)
    · exact ofResult (ofOk ht)
  | ctypeName =>
    rcases execCtypeName_next h with ⟨-, ht⟩ | ⟨-, code, -, h⟩
    · exact ofResult (ofNoHeader ht)
    · exact ofResult (lookup_writes_result (fun he => by cases (ctypeLookup_error he).1) h)
  | romSizeKib =>
    rcases execRomSizeKib_next h with ⟨-, ht⟩ | ⟨-, code, -, h⟩
    · exact ofResult (ofNoHeader ht)
    · exact ofResult (lookup_writes_result (fun he => by cases (romKib_error he).1) h)
  | ramSizeKib =>
    rcases execRamSizeKib_next h with ⟨-, ht⟩ | ⟨-, code, -, h⟩
    · exact ofResult (ofNoHeader ht)
    · exact ofResult (lookup_writes_result (fun he => by cases (ramKib_error he).1) h)

end Sys2Proof.Machine
end

