-- ==== Sys2Proof/Laws/PerInstr.lean ====
section
/-! SUPPORT. Statements for all commands, made per command. `RoundTrip`: a command is well-formed, its byte is one
of 0x01..0x08, and decoding that byte gives the command back (30_encoding.md R70). -/

namespace Sys2Proof.Laws.RoundTrip

/-- The byte of `i` is a command code and decodes to `i`. -/
def Statement (i : Instr) : Prop :=
  i.wf = true ∧ 1 ≤ (encode i).toNat ∧ (encode i).toNat ≤ 8 ∧ decodeByte (encode i) = .ok i

theorem parse : Statement .parse := by unfold Statement; decide
theorem validate : Statement .validate := by unfold Statement; decide
theorem ctypeName : Statement .ctypeName := by unfold Statement; decide
theorem licenseeName : Statement .licenseeName := by unfold Statement; decide
theorem romSizeKib : Statement .romSizeKib := by unfold Statement; decide
theorem ramSizeKib : Statement .ramSizeKib := by unfold Statement; decide
theorem load : Statement .load := by unfold Statement; decide
theorem titleText : Statement .titleText := by unfold Statement; decide

end Sys2Proof.Laws.RoundTrip
end

