-- ==== Sys2Proof/Laws/Step.lean ====
section
/-! SUPPORT. What a step, a `CMD` write and the host's other operations can do, once. -/

namespace Sys2Proof.Machine

variable {s t : State}

theorem writeCommand_next {c : Byte} (h : writeCommand c s = .next t) :
    (∃ i, decodeByte c = .ok i ∧ exec i s = .next t) ∨
    (∃ e, decodeByte c = .error e ∧ t = s.setResult .illegalCommand .none) := by
  unfold writeCommand at h
  split at h
  · exact .inl ⟨_, ‹_›, h⟩
  · exact .inr ⟨_, ‹_›, raise_next h⟩

theorem deliver_next {v : HostValue} (h : deliver v s = .next t) : t = s.setHostRead v :=
  (Host.Outcome.next.inj h).symm

theorem readView_next {α : Type} {r : HostReg} {a : Nat} {v : Option α} {f : α → HostValue}
    (h : readView r a v f s = .next t) : s.parsed = true ∧ ∃ x, v = some x ∧ t = s.setHostRead (f x) := by
  unfold readView at h
  split at h
  · obtain ⟨x, hx, h⟩ := withImage_next h
    exact ⟨‹_›, x, hx, deliver_next h⟩
  · cases h

/-- A view read in a state whose field has a value. -/
theorem readView_of_some {α : Type} {r : HostReg} {a : Nat} {v : Option α} {f : α → HostValue} {x : α}
    (hp : s.parsed = true) (hv : v = some x) : readView r a v f s = .next (s.setHostRead (f x)) := by
  subst hv; unfold readView; rw [if_pos hp]; rfl

theorem hostReadReg_next {r : HostReg} (h : hostReadReg r s = .next t) : ∃ v, t = s.setHostRead v := by
  cases r with
  | status | err | res | len | ckComputed | ckPassed | ckDone | parsed | headerValid => exact ⟨_, deliver_next h⟩
  | cmd => cases h
  | hEntry | hLogo | hTitle | hLicensee | hSgb | hCtype | hRomsz | hRamsz | hDest | hOldlic | hVersion | hHchk
  | hGchk =>
    obtain ⟨-, x, -, ht⟩ := readView_next h
    exact ⟨_, ht⟩

/-- One inversion for the step: the host does nothing, or its oldest operation runs on the rest of the queue. -/
theorem step_next (h : step s = .next t) :
    (s.pending = [] ∧ t = s) ∨
    (∃ op rest, s.pending = op :: rest ∧ runHostOp op (s.setPending rest) = .next t) := by
  unfold step runNextHostOp at h
  split at h
  · exact .inl ⟨‹_›, (Host.Outcome.next.inj h).symm⟩
  · exact .inr ⟨_, _, ‹_›, h⟩

/-- What each host operation leaves. -/
theorem runHostOp_next {op : HostOp} (h : runHostOp op s = .next t) :
    (∃ c i, op = .writeCmd c ∧ decodeByte c = .ok i ∧ exec i s = .next t) ∨
    (∃ c e, op = .writeCmd c ∧ decodeByte c = .error e ∧ t = s.setResult .illegalCommand .none) ∨
    (∃ bytes, op = .loadImage bytes ∧ t = hostLoadImage bytes s) ∨
    (op = .hostReset ∧ t = hostResetState s) ∨
    (∃ r v, op = .readReg r ∧ t = s.setHostRead v) := by
  cases op with
  | writeCmd c =>
    rcases writeCommand_next h with ⟨i, hd, h⟩ | ⟨e, hd, ht⟩
    · exact .inl ⟨c, i, rfl, hd, h⟩
    · exact .inr (.inl ⟨c, e, rfl, hd, ht⟩)
  | loadImage bytes => exact .inr (.inr (.inl ⟨bytes, rfl, (Host.Outcome.next.inj h).symm⟩))
  | hostReset => exact .inr (.inr (.inr (.inl ⟨rfl, (Host.Outcome.next.inj h).symm⟩)))
  | readReg r =>
    obtain ⟨v, ht⟩ := hostReadReg_next h
    exact .inr (.inr (.inr (.inr ⟨r, v, rfl, ht⟩)))

/-- The loaded image reads as its bytes. -/
theorem imgByte_hostLoadImage (bytes : List Byte) (s : State) (a : Nat) :
    imgByte (hostLoadImage bytes s) a = bytes[a]? :=
  imgByte_setImage_ofBytes bytes s a

/-- Every field of the state a load leaves. -/
theorem hostLoadImage_eq (bytes : List Byte) (s : State) :
    hostLoadImage bytes s =
      { State.reset with img := Memory.ofBytes bytes, len := bytes.length, pending := s.pending,
                         hostRead := s.hostRead } := rfl

end Sys2Proof.Machine
end

