-- ==== Sys2Proof/Laws/Query.lean ====
section
/-! SUPPORT. The read-only commands (43_decoder_facade.md R140, 41_header_view.md R112) read `PARSED` and a few image
bytes and write `ERR` and `RES`: one lemma carries an answer from one state to another that agrees on what they
read. -/

namespace Sys2Proof.Machine

variable {s s' t : State}

theorem withHeader_of_parsed {k : State → Answer} (hp : s.parsed = true) : withHeader s k = k s := by
  simp only [withHeader, hp, if_true]

theorem withHeader_of_not_parsed {k : State → Answer} (hp : s.parsed = false) :
    withHeader s k = .next (s.setResult .noHeader .none) := by
  simp only [withHeader, hp, Bool.false_eq_true, if_false]; rfl

theorem withImage_some {α : Type} {v : Option α} {x : α} {a : Nat} {k : α → Answer} (hv : v = some x) :
    withImage v a k = k x := by subst hv; rfl

theorem finishLookup_ok {α : Type} {v : Except ErrKind α} {x : α} {f : α → Res} (hv : v = .ok x) :
    finishLookup v f s = .next (s.setResult .ok (f x)) := by subst hv; rfl

theorem finishLookup_error {α : Type} {v : Except ErrKind α} {e : ErrKind} {f : α → Res} (hv : v = .error e) :
    finishLookup v f s = .next (s.setResult e .none) := by subst hv; rfl

/-- An answer of a read-only command depends on `PARSED` and on the image bytes 0x134..0x149 only. -/
theorem query_transfer {i : Instr} (hi : i ∈ readOnlyCommands) (hp : s'.parsed = s.parsed)
    (hw : ∀ a, 0x134 ≤ a → a < 0x14A → imgByte s' a = imgByte s a) (h : exec i s = .next t) :
    ∃ e r, t = s.setResult e r ∧ exec i s' = .next (s'.setResult e r) := by
  simp only [readOnlyCommands, List.mem_cons, List.not_mem_nil, or_false] at hi
  rcases hi with rfl | rfl | rfl | rfl | rfl
  · rcases execCtypeName_next h with ⟨hf, ht⟩ | ⟨ht, code, hcode, h⟩
    · exact ⟨_, _, ht, by rw [exec, execCtypeName, withHeader_of_not_parsed (hp.trans hf)]⟩
    · have hv : fieldCtype s' = some code := (hw _ (by omega) (by omega)).trans hcode
      rcases h with ⟨x, hx, rfl⟩ | ⟨e, he, rfl⟩
      · exact ⟨_, _, rfl, by
          rw [exec, execCtypeName, withHeader_of_parsed (hp.trans ht), withImage_some hv, finishLookup_ok hx]⟩
      · exact ⟨_, _, rfl, by
          rw [exec, execCtypeName, withHeader_of_parsed (hp.trans ht), withImage_some hv, finishLookup_error he]⟩
  · rcases execLicenseeName_next h with ⟨hf, ht⟩ | ⟨ht, key, hkey, rfl⟩
    · exact ⟨_, _, ht, by rw [exec, execLicenseeName, withHeader_of_not_parsed (hp.trans hf)]⟩
    · have hv : fieldLicensee s' = some key :=
        (imgHalf_congr le16 (hw _ (by omega) (by omega)) (hw _ (by omega) (by omega))).trans hkey
      exact ⟨_, _, rfl, by
        rw [exec, execLicenseeName, withHeader_of_parsed (hp.trans ht), withImage_some hv]; rfl⟩
  · rcases execRomSizeKib_next h with ⟨hf, ht⟩ | ⟨ht, code, hcode, h⟩
    · exact ⟨_, _, ht, by rw [exec, execRomSizeKib, withHeader_of_not_parsed (hp.trans hf)]⟩
    · have hv : fieldRomsz s' = some code := (hw _ (by omega) (by omega)).trans hcode
      rcases h with ⟨x, hx, rfl⟩ | ⟨e, he, rfl⟩
      · exact ⟨_, _, rfl, by
          rw [exec, execRomSizeKib, withHeader_of_parsed (hp.trans ht), withImage_some hv, finishLookup_ok hx]⟩
      · exact ⟨_, _, rfl, by
          rw [exec, execRomSizeKib, withHeader_of_parsed (hp.trans ht), withImage_some hv, finishLookup_error he]⟩
  · rcases execRamSizeKib_next h with ⟨hf, ht⟩ | ⟨ht, code, hcode, h⟩
    · exact ⟨_, _, ht, by rw [exec, execRamSizeKib, withHeader_of_not_parsed (hp.trans hf)]⟩
    · have hv : fieldRamsz s' = some code := (hw _ (by omega) (by omega)).trans hcode
      rcases h with ⟨x, hx, rfl⟩ | ⟨e, he, rfl⟩
      · exact ⟨_, _, rfl, by
          rw [exec, execRamSizeKib, withHeader_of_parsed (hp.trans ht), withImage_some hv, finishLookup_ok hx]⟩
      · exact ⟨_, _, rfl, by
          rw [exec, execRamSizeKib, withHeader_of_parsed (hp.trans ht), withImage_some hv, finishLookup_error he]⟩
  · rcases execTitleText_next h with ⟨hf, ht⟩ | ⟨ht, bs, hbs, rfl⟩
    · exact ⟨_, _, ht, by rw [exec, execTitleText, withHeader_of_not_parsed (hp.trans hf)]⟩
    · have hv : fieldTitle s' = some bs :=
        (memRead_window fun k hk => hw _ (by omega) (by simp only [titleLen] at hk; omega)).trans hbs
      exact ⟨_, _, rfl, by
        rw [exec, execTitleText, withHeader_of_parsed (hp.trans ht), withImage_some hv]; rfl⟩

end Sys2Proof.Machine
end

