-- ==== Sys2Proof/Laws/Run.lean ====
section
/-! SUPPORT. Running the machine for several steps: one step, then the rest. -/

namespace Sys2Proof.Machine

theorem run_succ (M : Host.Core) (n : Nat) (s : M.State) :
    Host.Core.run M (n + 1) s =
      match M.step s with
      | .next t => Host.Core.run M n t
      | .fault r => .fault r
      | .refused r => .refused r := rfl

variable {n : Nat} {s t : State}

theorem run_of_next (h : step s = .next t) :
    Host.Core.run Sys2Proof.core (n + 1) s = Host.Core.run Sys2Proof.core n t := by
  have hs : Sys2Proof.core.step s = .next t := h
  rw [run_succ Sys2Proof.core n s, hs]

theorem run_of_fault {r : Fault} (h : step s = .fault r) :
    Host.Core.run Sys2Proof.core (n + 1) s = .fault r := by
  have hs : Sys2Proof.core.step s = .fault r := h
  rw [run_succ Sys2Proof.core n s, hs]

theorem run_of_refused {r : Refusal} (h : step s = .refused r) :
    Host.Core.run Sys2Proof.core (n + 1) s = .refused r := by
  have hs : Sys2Proof.core.step s = .refused r := h
  rw [run_succ Sys2Proof.core n s, hs]

end Sys2Proof.Machine
end

