-- ==== Sys2Proof/Tests/Slice0.lean ====
section
/-! SUPPORT. The model's own tests and the witnesses of its statements. Expected values come from spec/: the source's
examples and the derived vectors of 95_test_vectors.md, each named in its test's comment. -/

namespace Sys2Proof.Tests

-- One thread: many kernel evaluations at once would each reserve a stack.
set_option Elab.async false

open Sys2Proof Sys2Proof.Machine

/-! ## Helpers -/

/-- An image of 0x150 bytes, zero but for the 28 bytes at 0x134..0x14F (95_test_vectors.md, conventions). -/
def imageOf (tail : List Byte) : List Byte := List.replicate 0x134 0 ++ tail

/-- Image B (T1) with its logo and entry bytes. -/
def imageB : List Byte :=
  List.replicate 0x100 0 ++ [0x00, 0xC3, 0x50, 0x01] ++ (List.range 48).map (BitVec.ofNat 8) ++
    [0x54, 0x45, 0x53, 0x54, 0, 0, 0, 0, 0, 0, 0, 0, 0, 0, 0, 0,
     0x31, 0x00, 0x00, 0x01, 0x01, 0x02, 0x00, 0x33, 0x01, 0x3E, 0x12, 0x34]

/-- Image A (T7). -/
def imageA : List Byte :=
  imageOf [0x50, 0x4F, 0x4B, 0x45, 0x4D, 0x4F, 0x4E, 0x20, 0x42, 0x4C, 0x55, 0x45, 0x00, 0x00, 0x00, 0x00,
           0x30, 0x31, 0x03, 0x13, 0x04, 0x03, 0x01, 0x33, 0x00, 0xD4, 0x9D, 0x0A]

/-- Image H of P7: the last valid table codes. -/
def imageH : List Byte :=
  imageOf [0x45, 0x44, 0x47, 0x45, 0, 0, 0, 0, 0, 0, 0, 0, 0, 0, 0, 0,
           0xA4, 0x00, 0x00, 0x22, 0x08, 0x05, 0x00, 0x00, 0x00, 0xFF, 0x00, 0x00]

/-- Image G of P4: the first invalid table codes. -/
def imageG : List Byte :=
  imageOf [0x42, 0x41, 0x44, 0, 0, 0, 0, 0, 0, 0, 0, 0, 0, 0, 0, 0,
           0x02, 0x00, 0x00, 0x23, 0x09, 0x06, 0x00, 0x00, 0x00, 0xEC, 0x00, 0x00]

/-- Right after `HostLoadImage(bytes)` on a reset block. -/
def fresh (bytes : List Byte) : State := hostLoadImage bytes State.reset

/-- The same with a parsed header. -/
def withParsed (bytes : List Byte) : State := (fresh bytes).setParsed true

/-- Image B after a `LOAD`: T18's first row. -/
def loadedB : State := (withParsed imageB).setDone { computed := 0x3E, passed := true }

/-- The next state of an answer, if it has one. -/
def nextOf : Answer → Option State
  | .next t => some t
  | .fault _ => none
  | .refused _ => none

/-- The refusal of an answer, if it is one. -/
def refusalOf : Answer → Option Refusal
  | .next _ => none
  | .fault _ => none
  | .refused r => some r

/-- `PARSED CK_DONE CK_PASSED CK_COMPUTED ERR RES`, as 95_test_vectors.md writes a state. -/
def row (a : Answer) : Option (Bool × Bool × Bool × Byte × ErrKind × Res) :=
  (nextOf a).map fun t => (t.parsed, t.ckDone, t.ckPassed, t.ckComputed, t.err, t.res)

/-- `ERR` and `RES` of an answer. -/
def errRes (a : Answer) : Option (ErrKind × Res) := (nextOf a).map fun t => (t.err, t.res)

theorem exists_next {a : Answer} (h : (nextOf a).isSome = true) : ∃ t, a = .next t := by
  cases a with
  | next t => exact ⟨t, rfl⟩
  | fault r => cases h
  | refused r => cases h

/-! ## Well-formedness: each check refuses an ill-formed term -/

/-- A read of the write-only `CMD` (R22). -/
theorem smoke_read_of_cmd_ill_formed : ¬ HostOp.wf (.readReg .cmd) := by
  simp [HostOp.wf, HostReg.readable]

/-- An image of `2^LEN_W` bytes (R31). -/
theorem smoke_long_image_ill_formed : ¬ HostOp.wf (.loadImage (List.replicate (2 ^ Config.lenW) 0)) := by
  simp [HostOp.wf, imageFits]

/-- The largest image length R31 allows is well-formed. -/
theorem smoke_longest_image_well_formed :
    HostOp.wf (.loadImage (List.replicate (2 ^ Config.lenW - 1) 0)) := by
  have := Nat.two_pow_pos Config.lenW
  simp only [HostOp.wf, imageFits, List.length_replicate]; omega

/-! ## Decoding: every command's byte, bit by bit from R70 -/

theorem test_decode_parse : decodeByte 0b00000001#8 = .ok .parse := by rfl
theorem test_decode_validate : decodeByte 0b00000010#8 = .ok .validate := by rfl
theorem test_decode_ctypeName : decodeByte 0b00000011#8 = .ok .ctypeName := by rfl
theorem test_decode_licenseeName : decodeByte 0b00000100#8 = .ok .licenseeName := by rfl
theorem test_decode_romSizeKib : decodeByte 0b00000101#8 = .ok .romSizeKib := by rfl
theorem test_decode_ramSizeKib : decodeByte 0b00000110#8 = .ok .ramSizeKib := by rfl
theorem test_decode_load : decodeByte 0b00000111#8 = .ok .load := by rfl
theorem test_decode_titleText : decodeByte 0b00001000#8 = .ok .titleText := by rfl
/-- Reserved bytes (T20). -/
theorem test_decode_reserved :
    decodeByte 0x00 = .error (.reservedCommand 0x00) ∧ decodeByte 0x09 = .error (.reservedCommand 0x09) ∧
    decodeByte 0x7F = .error (.reservedCommand 0x7F) ∧ decodeByte 0xFF = .error (.reservedCommand 0xFF) := by
  refine ⟨rfl, rfl, rfl, rfl⟩
/-- No byte is no command (R73), and the table's numbering of the word is the byte itself. -/
theorem test_decode_bytes :
    decodeBytes [] = .error .noByte ∧ decodeBytes [0x07, 0x09] = .ok (.load, [0x09]) ∧
    decodeTableWord 8 0x08 = some .titleText ∧ decodeTableWord 8 0x00 = none := by
  refine ⟨rfl, rfl, rfl, rfl⟩
/-- P1's encoding. -/
theorem test_decode_program :
    decodeProgram [0x07, 0x08, 0x03, 0x04, 0x05, 0x06] =
      .ok [.load, .titleText, .ctypeName, .licenseeName, .romSizeKib, .ramSizeKib] := by rfl
/-- No two rows of the table match one byte. -/
theorem test_rows_disjoint :
    opTable.Pairwise (fun r q => r.code &&& q.mask ≠ q.code) := by decide

/-! ## One step per command -/

/-- T2 at the length boundary. -/
theorem test_parse_boundary :
    row (exec .parse (fresh (imageB.take 0x14F))) = some (false, false, false, 0, .truncatedImage, .none) ∧
    row (exec .parse (fresh imageB)) = some (true, false, false, 0, .ok, .none) :=
  ⟨by decide +kernel, by decide +kernel⟩

/-- T10: `VALIDATE` needs no `PARSE`. -/
theorem test_validate_image_b :
    row (exec .validate (fresh imageB)) = some (false, true, true, 0x3E, .ok, .none) := by decide +kernel

/-- R134: 25 zero bytes give 0xE7, which tells 25 bytes from 29 (C1). -/
theorem test_validate_zeros :
    row (exec .validate (fresh (List.replicate 0x150 0))) = some (false, true, false, 0xE7, .ok, .none) := by
  decide +kernel

/-- T12: 0x01 is "MBC1" and 0x23 is the first error. -/
theorem test_ctypeName :
    errRes (exec .ctypeName (withParsed imageB)) = some (.ok, .text [0x4D, 0x42, 0x43, 0x31]) ∧
    errRes (exec .ctypeName (withParsed imageG)) = some (.unsupportedCartridgeType, .none) := by decide +kernel

/-- T13: bytes 31 00 are key 0x0031, bytes 30 31 are key 0x3130. -/
theorem test_licenseeName :
    errRes (exec .licenseeName (withParsed imageB)) =
      some (.ok, .text [0x4E, 0x69, 0x6E, 0x74, 0x65, 0x6E, 0x64, 0x6F]) ∧
    errRes (exec .licenseeName (withParsed imageA)) =
      some (.ok, .text [0x55, 0x4E, 0x4B, 0x4E, 0x4F, 0x57, 0x4E]) := by decide +kernel

/-- T14: code 8 is 8192 KiB and code 9 an error. -/
theorem test_romSizeKib :
    errRes (exec .romSizeKib (withParsed imageH)) = some (.ok, .int 8192) ∧
    errRes (exec .romSizeKib (withParsed imageG)) = some (.unsupportedRomSize, .none) := by decide +kernel

/-- T15: code 5 is 64 KiB, not 128, and code 6 an error. -/
theorem test_ramSizeKib :
    errRes (exec .ramSizeKib (withParsed imageH)) = some (.ok, .int 64) ∧
    errRes (exec .ramSizeKib (withParsed imageG)) = some (.unsupportedRamSize, .none) := by decide +kernel

/-- T18: image A passes with 0xD4 (T7). -/
theorem test_load_image_a :
    row (exec .load (fresh imageA)) = some (true, true, true, 0xD4, .ok, .none) := by decide +kernel

/-- P2: image B with 0x3F stored is a mismatch and no error. -/
theorem test_load_mismatch :
    row (exec .load (fresh (imageB.set 0x14D 0x3F))) = some (true, true, false, 0x3E, .ok, .none) := by
  decide +kernel

/-- T3: the text ends at the first zero. -/
theorem test_titleText_pokemon :
    errRes (exec .titleText (withParsed (imageOf
      [0x50, 0x4F, 0x4B, 0x45, 0x4D, 0x4F, 0x4E, 0x20, 0x42, 0x4C, 0x55, 0x45, 0x00, 0x80, 0x80, 0x80,
       0, 0, 0, 0, 0, 0, 0, 0, 0, 0, 0, 0]))) =
      some (.ok, .text [0x50, 0x4F, 0x4B, 0x45, 0x4D, 0x4F, 0x4E, 0x20, 0x42, 0x4C, 0x55, 0x45]) := by
  decide +kernel

/-- T5: without a zero among bytes 0..14 the text has 15 bytes; T16: without a header, `NoHeader`. -/
theorem test_titleText_no_zero :
    titleTextOf ((List.range 16).map fun k => BitVec.ofNat 8 (0x41 + k)) =
      (List.range 15).map (fun k => BitVec.ofNat 8 (0x41 + k)) ∧
    errRes (exec .titleText (fresh imageB)) = some (.noHeader, .none) := by decide +kernel

/-! ## The host's operations -/

/-- P6, step 3: no result of the old image survives the replacement. -/
theorem test_hostLoadImage_clears :
    row (runHostOp (.loadImage imageA) loadedB) = some (false, false, false, 0, .ok, .none) := by decide +kernel

/-- T1: the two 16-bit fields and their byte orders. -/
theorem test_read_half_fields :
    (nextOf (hostReadReg .hLicensee (withParsed imageB))).map (·.hostRead) = some (some (.half 0x0031)) ∧
    (nextOf (hostReadReg .hGchk (withParsed imageB))).map (·.hostRead) = some (some (.half 0x1234)) := by
  decide +kernel

/-- T1: the logo's byte `i` is `i`, and `H_ENTRY` is 00 C3 50 01. -/
theorem test_read_raw_fields :
    (nextOf (hostReadReg .hLogo (withParsed imageB))).map (·.hostRead) =
      some (some (.raw ((List.range 48).map (BitVec.ofNat 8)))) ∧
    (nextOf (hostReadReg .hEntry (withParsed imageB))).map (·.hostRead) =
      some (some (.raw [0x00, 0xC3, 0x50, 0x01])) := by decide +kernel

/-- T1: the single-byte fields. -/
theorem test_read_byte_fields :
    ([HostReg.hSgb, .hCtype, .hRomsz, .hRamsz, .hDest, .hOldlic, .hVersion, .hHchk].map fun r =>
      (nextOf (hostReadReg r (withParsed imageB))).map (·.hostRead)) =
    ([0x00, 0x01, 0x01, 0x02, 0x00, 0x33, 0x01, 0x3E].map fun b => some (some (HostValue.byte b))) := by
  decide +kernel

/-- T20: byte 0x09 after `LOAD` of image B makes `STATUS` 0x77; R27: no view before a parse; R22: `CMD` is not read. -/
theorem test_status_and_refusals :
    (nextOf (writeCommand 0x09 loadedB)).map status = some 0x77 ∧
    refusalOf (hostReadReg .hCtype (fresh imageB)) = some (.viewUndefined .hCtype) ∧
    refusalOf (hostReadReg .cmd loadedB) = some (.writeOnly .cmd) := by decide +kernel

/-- A step from reset with a table word placed runs that command: P5, `PARSE` on the empty block. -/
theorem test_first_step_after_reset :
    row (step (State.reset.withFetchWord 8 0x01)) = some (false, false, false, 0, .truncatedImage, .none) := by
  decide

/-- R75, C5: `rom_size_bytes` of code 8 (R93's table). -/
theorem test_romSizeBytes :
    ((nextOf (exec .romSizeKib (withParsed imageH))).bind romSizeBytes) = some 0x800000 := by decide +kernel

/-- The image a load leaves is canonical, and `T8`'s final value is what the scan gives. -/
theorem test_scan_image_b : (scannedBytes (fresh imageB)).map checksumScan = some 0x3E := by decide +kernel

/-- T6. -/
theorem test_scan_steps :
    ckStep 0x00 0x00 = 0xFF ∧ ckStep 0xFF 0xFF = 0xFF ∧ ckStep 0xFF 0x80 = 0x7E ∧ ckStep 0x7E 0x7F = 0xFE ∧
    ckStep 0x00 0xFF = 0x00 ∧ ckStep 0x01 0x00 = 0x00 ∧ ckStep 0x00 0x01 = 0xFE ∧ ckStep 0x80 0x7F = 0x00 := by
  decide

/-! ## Witnesses: for each statement with hypotheses, concrete states and operands that meet them -/

theorem imageB_length : imageB.length = 0x150 := by decide +kernel

theorem fresh_inv (bytes : List Byte) : (fresh bytes).Inv where
  imageExact := Memory.map_fst_ofBytes bytes
  parsedLong h := by cases h
  doneLong h := by cases h
  doneResult h := by cases h
  notDoneZero _ := ⟨rfl, rfl⟩
  noIoError h := by cases h
  errNoResult _ := rfl

theorem withParsed_inv {bytes : List Byte} (h : 0x150 ≤ bytes.length) : (withParsed bytes).Inv where
  imageExact := Memory.map_fst_ofBytes bytes
  parsedLong _ := h
  doneLong h := by cases h
  doneResult h := by cases h
  notDoneZero _ := ⟨rfl, rfl⟩
  noIoError h := by cases h
  errNoResult _ := rfl

theorem loadedB_inv : loadedB.Inv where
  imageExact := Memory.map_fst_ofBytes imageB
  parsedLong _ := imageB_length.ge
  doneLong _ := imageB_length.ge
  doneResult _ := by decide +kernel
  notDoneZero h := by cases h
  noIoError h := by cases h
  errNoResult _ := rfl

/-- A loaded block with `ops` queued is still one the invariant allows. -/
theorem queued_inv {s : State} (h : s.Inv) (ops : List HostOp) : (s.setPending ops).Inv where
  imageExact := h.imageExact
  parsedLong := h.parsedLong
  doneLong := h.doneLong
  doneResult hd := (checksumOf_congr (s := s) rfl rfl).trans (h.doneResult hd)
  notDoneZero := h.notDoneZero
  noIoError := h.noIoError
  errNoResult := h.errNoResult

/-- Both ends of the reserved ranges, and the first byte of the upper one. -/
theorem witness_reserved_bytes :
    ((0x00 : Byte) = 0x00 ∨ 0x09 ≤ (0x00 : Byte)) ∧ ((0x09 : Byte) = 0x00 ∨ 0x09 ≤ (0x09 : Byte)) ∧
    ((0xFF : Byte) = 0x00 ∨ 0x09 ≤ (0xFF : Byte)) ∧ ¬ ((0x08 : Byte) = 0x00 ∨ 0x09 ≤ (0x08 : Byte)) := by decide

theorem witness_CommandBytesDecode : (0x09 : Byte) = 0x00 ∨ 0x09 ≤ (0x09 : Byte) := by decide

theorem witness_ReservedByteIsIllegal : ∃ t, ((0x09 : Byte) = 0x00 ∨ 0x09 ≤ (0x09 : Byte)) ∧
    writeCommand 0x09 loadedB = .next t :=
  ⟨_, by decide, rfl⟩

theorem witness_StepRunsDecodedCommand : ∃ (s : State) (op : HostOp) (rest : List HostOp) (c : Byte) (i : Instr),
    s.pending = op :: rest ∧ op = .writeCmd c ∧ decodeByte c = .ok i :=
  ⟨loadedB.setPending [.writeCmd 0x08], _, [], 0x08, .titleText, rfl, rfl, rfl⟩

theorem witness_CommandsRunInHostOrder : ∃ (p : List Instr) (s : State) (rest : List HostOp),
    p = [.load, .titleText] ∧ s.pending = p.map (fun i => .writeCmd (encode i)) ++ rest :=
  ⟨_, (fresh imageB).setPending [.writeCmd 0x07, .writeCmd 0x08, .hostReset], [.hostReset], rfl, rfl⟩

theorem witness_WaitsForTheHost : State.reset.pending = [] := rfl

/-- `PARSE`, `VALIDATE` and `LOAD` on either side of the length boundary. -/
theorem witness_length_boundary :
    (fresh (imageB.take 0x14F)).len < 0x150 ∧ (fresh (imageB.take 0x14F)).len = 0x14F ∧
    0x150 ≤ (fresh imageB).len ∧ (fresh imageB).len = 0x150 := by decide +kernel

/-- For `ParseEffect`: the length boundary is `witness_length_boundary`. -/
theorem witness_ParseEffect :
    (fresh (imageB.take 0x14F)).len < 0x150 ∧ 0x150 ≤ (fresh imageB).len ∧
    (∃ t, (fresh imageB).Inv ∧ exec .parse (fresh imageB) = .next t ∧ t.err = .ok) ∧
    (∃ t, (fresh []).Inv ∧ exec .parse (fresh []) = .next t ∧ t.err ≠ .ok) := by
  refine ⟨witness_length_boundary.1, witness_length_boundary.2.2.1, ?_, ⟨_, fresh_inv _, rfl, by decide⟩⟩
  have h : (row (exec .parse (fresh imageB))).map (·.2.2.2.2.1) = some .ok := by decide +kernel
  cases ha : exec .parse (fresh imageB) with
  | next t => rw [ha] at h; exact ⟨t, fresh_inv _, rfl, Option.some.inj h⟩
  | fault r => rw [ha] at h; cases h
  | refused r => rw [ha] at h; cases h

theorem witness_ParseIgnoresContents : ∃ t, exec .parse (fresh imageB) = .next t :=
  exists_next (by decide +kernel)

theorem witness_TitleTextEffect :
    (fresh imageB).parsed = false ∧
    ∃ t, (withParsed imageB).parsed = true ∧ memRead (withParsed imageB) 0x134 16 = some t :=
  ⟨rfl, _, rfl, show _ = some ((imageB.drop 0x134).take 16) by decide +kernel⟩

theorem witness_TitleTextEndsAtFirstZero : (List.replicate 16 (0xFF : Byte)).length = 16 := by decide

/-- For `ValidateEffect` and `LoadEffect`: the bytes the long clause names, at `LEN = 0x150`. -/
theorem witness_ValidateEffect :
    (fresh (imageB.take 0x14F)).len < 0x150 ∧
    ∃ bs stored, 0x150 ≤ (fresh imageB).len ∧ memRead (fresh imageB) 0x134 25 = some bs ∧
      imgByte (fresh imageB) 0x14D = some stored :=
  ⟨witness_length_boundary.1, (imageB.drop 0x134).take 25, 0x3E, witness_length_boundary.2.2.1,
    by decide +kernel, by decide +kernel⟩

theorem witness_LoadEffect :
    (fresh (imageB.take 0x14F)).len < 0x150 ∧
    ∃ bs stored, 0x150 ≤ (fresh imageB).len ∧ memRead (fresh imageB) 0x134 25 = some bs ∧
      imgByte (fresh imageB) 0x14D = some stored :=
  witness_ValidateEffect

theorem witness_ScanCoversTwentyFiveBytes : ∃ (s : State) (b : Nat → Byte) (stored : Byte), 0x150 ≤ s.len ∧
    (∀ a, 0x134 ≤ a → a ≤ 0x14C → imgByte s a = some (b a)) ∧ imgByte s 0x14D = some stored := by
  refine ⟨fresh imageB, fun a => imageB.getD a 0, 0x3E, witness_length_boundary.2.2.1, fun a _ ha => ?_,
    by decide +kernel⟩
  have hlt : a < imageB.length := by rw [imageB_length]; omega
  rw [fresh, imgByte_hostLoadImage, List.getElem?_eq_getElem hlt]
  exact congrArg some (List.getD_eq_getElem _ _ hlt).symm

theorem witness_ScanClosedForm : ∃ bs cs : List Byte, bs.length = 25 ∧ cs.Perm bs ∧ cs ≠ bs :=
  ⟨1 :: List.replicate 24 0, (1 :: List.replicate 24 0).reverse, rfl, List.reverse_perm _, by decide⟩

theorem witness_SingleCorruptionDetected :
    (List.replicate 25 (0 : Byte)).length = 25 ∧ (List.replicate 25 (0 : Byte))[0]? = some 0 ∧
    (List.replicate 25 (0 : Byte))[24]? = some 0 ∧ (1 : Byte) ≠ 0 := by decide

theorem witness_ChecksumMismatchIsNoError : (fresh imageB).Inv ∧ 0x150 ≤ (fresh imageB).len :=
  ⟨fresh_inv _, witness_length_boundary.2.2.1⟩

/-- Every read-only command answers on a loaded block (`QueriesIgnoreChecksum`, `QueryFrame`). -/
theorem witness_QueryFrame : ∀ i ∈ readOnlyCommands, ∃ t, exec i loadedB = .next t := by
  intro i hi
  apply exists_next
  revert i
  decide +kernel

theorem witness_QueriesIgnoreChecksum : ∃ t, Instr.romSizeKib ∈ readOnlyCommands ∧ exec .romSizeKib loadedB = .next t :=
  let ⟨t, ht⟩ := witness_QueryFrame .romSizeKib (by decide)
  ⟨t, by decide, ht⟩

/-- The domain boundaries of the lookups: 0x22 and 0x23, 8 and 9, 5 and 6, keys 0xA4 and 0xA5. -/
theorem witness_lookup_boundaries :
    (0x22 : Byte).toNat < 35 ∧ 0x23 ≤ (0x23 : Byte).toNat ∧ (8 : Byte).toNat ≤ 8 ∧ 8 < (9 : Byte).toNat ∧
    (5 : Byte).toNat ≤ 5 ∧ 5 < (6 : Byte).toNat ∧ (0xA4 : Half).toNat < 165 ∧ 0xA4 < (0xA5 : Half).toNat := by decide

theorem witness_CtypeLookupDomain : 0x23 ≤ (0x23 : Byte).toNat ∧ (0x22 : Byte).toNat < 35 := by decide

/-- Both of the third clause's cases hold of some key: 0x31 is named, 0x02 is a gap. -/
theorem witness_LicenseeLookupNeverFails :
    0xA4 < (0xA5 : Half).toNat ∧ licTable ⟨0x31, by decide⟩ = some strNintendo ∧
    licTable ⟨0x02, by decide⟩ = none := by refine ⟨by decide, rfl, rfl⟩

theorem witness_SizeLookups :
    8 < (9 : Byte).toNat ∧ (8 : Byte).toNat ≤ 8 ∧ 5 < (6 : Byte).toNat ∧ (5 : Byte).toNat ≤ 5 := by decide

theorem witness_CtypeNameEffect :
    (fresh imageH).parsed = false ∧ (withParsed imageH).parsed = true ∧
    imgByte (withParsed imageG) 0x147 = some 0x23 ∧ 0x23 ≤ (0x23 : Byte).toNat ∧
    imgByte (withParsed imageH) 0x147 = some 0x22 ∧ (0x22 : Byte).toNat < 35 := by decide +kernel

theorem witness_LicenseeNameEffect :
    (fresh imageA).parsed = false ∧ (withParsed imageA).parsed = true ∧
    imgByte (withParsed imageA) 0x144 = some 0x30 ∧ imgByte (withParsed imageA) 0x145 = some 0x31 ∧
    (0x3130 : Half).toNat = (0x30 : Byte).toNat + 256 * (0x31 : Byte).toNat := by decide +kernel

theorem witness_RomSizeKibEffect :
    (fresh imageH).parsed = false ∧ (withParsed imageH).parsed = true ∧
    imgByte (withParsed imageG) 0x148 = some 9 ∧ 8 < (9 : Byte).toNat ∧
    imgByte (withParsed imageH) 0x148 = some 8 ∧ (8 : Byte).toNat ≤ 8 := by decide +kernel

theorem witness_RamSizeKibEffect :
    (fresh imageH).parsed = false ∧ (withParsed imageH).parsed = true ∧
    imgByte (withParsed imageG) 0x149 = some 6 ∧ 5 < (6 : Byte).toNat ∧
    imgByte (withParsed imageH) 0x149 = some 5 ∧ (5 : Byte).toNat ≤ 5 := by decide +kernel

theorem witness_IntegerResultsListed : ∃ t n, exec .ramSizeKib loadedB = .next t ∧ t.res = .int n := by
  have h : (nextOf (exec .ramSizeKib loadedB)).map (·.res) = some (.int 8) := by decide +kernel
  cases ha : exec .ramSizeKib loadedB with
  | next t => rw [ha] at h; exact ⟨t, 8, rfl, Option.some.inj h⟩
  | fault r => rw [ha] at h; cases h
  | refused r => rw [ha] at h; cases h

theorem witness_LoadCartridgeReturnsHeader : 0x150 ≤ imageB.length := imageB_length.ge

theorem witness_LoadCartridgeFailures : (imageB.take 0x14F).length < 0x150 := by decide +kernel

theorem witness_LengthCheckedFrame :
    (∃ t, exec .parse (fresh imageB) = .next t) ∧ (∃ t, exec .validate (fresh imageB) = .next t) ∧
    (∃ t, exec .load (fresh imageB) = .next t) :=
  ⟨exists_next (by decide +kernel), exists_next (by decide +kernel), exists_next (by decide +kernel)⟩

theorem witness_ImageImmutable :
    (∃ t, writeCommand 0x08 loadedB = .next t) ∧ (∃ t, writeCommand 0xFF loadedB = .next t) :=
  ⟨exists_next (by decide +kernel), exists_next (by decide +kernel)⟩

theorem witness_ErrorCodes : ErrKind.noHeader.code = ErrKind.noHeader.code := rfl

/-- For `ErrorPriority`: a parsed header at the tables' last valid codes (image H) and first invalid ones (image G),
the reserved bytes next to the table, and a short block. -/
theorem witness_ErrorPriority :
    ((withParsed imageH).Inv ∧ (withParsed imageH).parsed = true ∧ imgByte (withParsed imageH) 0x147 = some 0x22 ∧
      imgByte (withParsed imageH) 0x148 = some 8 ∧ imgByte (withParsed imageH) 0x149 = some 5) ∧
    ((withParsed imageG).Inv ∧ (withParsed imageG).parsed = true ∧ imgByte (withParsed imageG) 0x147 = some 0x23 ∧
      imgByte (withParsed imageG) 0x148 = some 9 ∧ imgByte (withParsed imageG) 0x149 = some 6) ∧
    ((fresh (imageB.take 0x14F)).Inv ∧ (fresh (imageB.take 0x14F)).parsed = false ∧
      (fresh (imageB.take 0x14F)).len < 0x150) ∧
    ((0x00 : Byte) = 0x00 ∨ 0x09 ≤ (0x00 : Byte)) ∧ ¬ ((0x08 : Byte) = 0x00 ∨ 0x09 ≤ (0x08 : Byte)) :=
  ⟨⟨withParsed_inv (by decide +kernel), rfl, by decide +kernel, by decide +kernel, by decide +kernel⟩,
    ⟨withParsed_inv (by decide +kernel), rfl, by decide +kernel, by decide +kernel, by decide +kernel⟩,
    ⟨fresh_inv _, rfl, witness_length_boundary.1⟩, by decide, by decide⟩

theorem witness_EveryOperationCompletes : ∃ (s : State) (op : HostOp) (rest : List HostOp), s.Inv ∧
    s.pending = op :: rest ∧ (∀ r, op = .readReg r → r ≠ .cmd ∧ (r.isHeaderView = true → s.parsed = true)) ∧
    op = .readReg .hLogo := by
  refine ⟨loadedB.setPending [.readReg .hLogo], .readReg .hLogo, [], queued_inv loadedB_inv _, rfl, ?_, rfl⟩
  intro r hr
  obtain rfl := HostOp.readReg.inj hr
  exact ⟨by decide, fun _ => rfl⟩

theorem witness_StepKeepsInvariant : ∃ t, (loadedB.setPending [.writeCmd 0x07]).Inv ∧
    step (loadedB.setPending [.writeCmd 0x07]) = .next t :=
  let ⟨t, ht⟩ := exists_next (a := step (loadedB.setPending [.writeCmd 0x07])) (by decide +kernel)
  ⟨t, queued_inv loadedB_inv _, ht⟩

theorem witness_StepKeepsCanonicalImage : ∃ t, (State.reset.setPending [.loadImage [7, 0, 9]]).img.wf ∧
    step (State.reset.setPending [.loadImage [7, 0, 9]]) = .next t :=
  ⟨_, List.Pairwise.nil, rfl⟩

/-- R5: `LEN_W` is at least 9, so an image of 3 bytes fits. -/
theorem witness_LenStaysInWidth : ∃ t, (State.reset.setPending [.loadImage [7, 0, 9]]).LenInWidth ∧
    step (State.reset.setPending [.loadImage [7, 0, 9]]) = .next t := by
  refine ⟨_, ⟨Nat.two_pow_pos _, fun op hop => ?_⟩, rfl⟩
  obtain rfl : op = .loadImage [7, 0, 9] := by simpa using hop
  have h9 : 2 ^ 9 ≤ 2 ^ Config.lenW := Nat.pow_le_pow_right (by decide) (Nat.le_add_right 9 _)
  exact Nat.lt_of_lt_of_le (by decide) h9

theorem witness_FlagTransitions :
    (∃ t, (fresh (imageB.take 0x14F)).Inv ∧ writeCommand 0x07 (fresh (imageB.take 0x14F)) = .next t ∧
      (fresh (imageB.take 0x14F)).len < 0x150) ∧
    (∃ t, loadedB.Inv ∧ writeCommand 0x02 loadedB = .next t ∧ 0x150 ≤ loadedB.len ∧ loadedB.ckDone = true) := by
  obtain ⟨t, ht⟩ := exists_next (a := writeCommand 0x07 (fresh (imageB.take 0x14F))) (by decide +kernel)
  obtain ⟨u, hu⟩ := exists_next (a := writeCommand 0x02 loadedB) (by decide +kernel)
  exact ⟨⟨t, fresh_inv _, ht, witness_length_boundary.1⟩, ⟨u, loadedB_inv, hu, witness_length_boundary.2.2.1, rfl⟩⟩

theorem witness_CommandsIdempotent : ∃ t, exec .load (fresh imageB) = .next t :=
  exists_next (by decide +kernel)

/-- With a parsed header any two commands; without one a read-only command after `VALIDATE`, and `LOAD` after
`PARSE`. -/
theorem witness_AnswerUnaffectedByOtherCommand :
    (∃ t u, 0x150 ≤ (withParsed imageB).len ∧ Instr.ctypeName ∈ readOnlyCommands ∧ (withParsed imageB).parsed = true ∧
      exec .load (withParsed imageB) = .next t ∧ exec .ctypeName (withParsed imageB) = .next u) ∧
    (∃ t u, 0x150 ≤ (fresh imageB).len ∧ (fresh imageB).parsed = false ∧ Instr.validate ≠ .parse ∧
      Instr.validate ≠ .load ∧ exec .validate (fresh imageB) = .next t ∧ exec .ctypeName (fresh imageB) = .next u) ∧
    (∃ t u, 0x150 ≤ (fresh imageB).len ∧ Instr.load ∉ readOnlyCommands ∧
      exec .parse (fresh imageB) = .next t ∧ exec .load (fresh imageB) = .next u) := by
  obtain ⟨t, ht⟩ := exists_next (a := exec .load (withParsed imageB)) (by decide +kernel)
  obtain ⟨u, hu⟩ := exists_next (a := exec .ctypeName (withParsed imageB)) (by decide +kernel)
  obtain ⟨t', ht'⟩ := exists_next (a := exec .validate (fresh imageB)) (by decide +kernel)
  obtain ⟨u', hu'⟩ := exists_next (a := exec .ctypeName (fresh imageB)) (by decide +kernel)
  obtain ⟨t'', ht''⟩ := exists_next (a := exec .parse (fresh imageB)) (by decide +kernel)
  obtain ⟨u'', hu''⟩ := exists_next (a := exec .load (fresh imageB)) (by decide +kernel)
  have hl := witness_length_boundary.2.2.1
  exact ⟨⟨t, u, hl, by decide, rfl, ht, hu⟩, ⟨t', u', hl, rfl, by decide, by decide, ht', hu'⟩,
    ⟨t'', u'', hl, by decide, ht'', hu''⟩⟩

/-- Image B against image B with a byte before the window changed and a byte appended. -/
theorem witness_BytesOutsideHeaderIrrelevant :
    ((fresh imageB).len < 0x150 ↔ 0x151 < 0x150) ∧
    (fresh imageB).SameWindow
      { fresh imageB with img := Memory.ofBytes (imageB.set 0xFF 1 ++ [7]), len := 0x151 } ∧
    ∃ t, exec .validate (fresh imageB) = .next t := by
  refine ⟨?_, ?_, exists_next (by decide +kernel)⟩
  · have : (fresh imageB).len = 0x150 := witness_length_boundary.2.2.2
    omega
  · intro a h1 h2
    have hlt : a < imageB.length := by rw [imageB_length]; exact h2
    have hread : (Memory.ofBytes (imageB.set 0xFF 1 ++ [7])).read a = imageB[a]? := by
      rw [Memory.read_ofBytes, List.getElem?_append_left (by simpa using hlt), List.getElem?_set_ne (by omega)]
    have hb : imgByte (fresh imageB) a = imageB[a]? := imgByte_hostLoadImage imageB State.reset a
    rw [hb, ← hread]
    simp only [imgByte, show a < 0x151 by omega, if_true]

theorem witness_CommandsAfterReset : Instr.titleText ∈ readOnlyCommands ∧ ((0x00 : Byte) = 0x00 ∨ 0x09 ≤ (0x00 : Byte)) := by
  decide

theorem witness_UndefinedReadsRefused :
    HostReg.hEntry.isHeaderView = true ∧ HostReg.hGchk.isHeaderView = true ∧ (fresh imageB).parsed = false ∧
    (fresh imageB).Inv ∧ (fresh imageB).ckDone = false :=
  ⟨rfl, rfl, rfl, fresh_inv _, rfl⟩

theorem witness_ViewReadsGiveFields : loadedB.Inv ∧ loadedB.parsed = true := ⟨loadedB_inv, rfl⟩

theorem witness_HostReadsHaveNoSideEffect : ∃ t, hostReadReg .hTitle loadedB = .next t :=
  exists_next (by decide +kernel)

/-- Two instances, one of which runs `PARSE`. -/
theorem witness_InstancesIndependent : ∃ sys' : Vector State 2,
    stepInstance (n := 2) 0 #v[State.reset.setPending [.writeCmd 0x01], loadedB] = .next sys' := ⟨_, rfl⟩

end Sys2Proof.Tests
end

section
/-! PROOFS. The statements of 10_state.md: the invariant, the canonical image, the host's operations, the reads. -/

namespace Sys2Proof.Machine

open Sys2Proof

section Facts

variable {s t : State}

/-! ## The invariant under the register updates -/

/-- The queue is the host's own, so the invariant does not speak of it. -/
theorem State.Inv.setPending (h : s.Inv) (ops : List HostOp) : (s.setPending ops).Inv :=
  { h with doneResult := fun hd => (checksumOf_congr rfl rfl).trans (h.doneResult hd) }

/-- Nor does it speak of the value the host last read. -/
theorem State.Inv.setHostRead (h : s.Inv) (v : HostValue) : (s.setHostRead v).Inv :=
  { h with doneResult := fun hd => (checksumOf_congr rfl rfl).trans (h.doneResult hd) }

theorem State.Inv.setResult (h : s.Inv) {e : ErrKind} {r : Res} (he : e ≠ .ioError) (hr : e ≠ .ok → r = .none) :
    (s.setResult e r).Inv :=
  { h with
    doneResult := fun hd => (checksumOf_congr rfl rfl).trans (h.doneResult hd)
    noIoError := he
    errNoResult := hr }

theorem State.Inv.setParsed (h : s.Inv) {b : Bool} (hb : b = true → s.long) : (s.setParsed b).Inv :=
  { h with
    parsedLong := hb
    doneResult := fun hd => (checksumOf_congr rfl rfl).trans (h.doneResult hd) }

theorem State.Inv.clearChecksum (h : s.Inv) : s.clearChecksum.Inv :=
  { h with
    doneLong := nofun
    doneResult := nofun
    notDoneZero := fun _ => ⟨rfl, rfl⟩ }

theorem State.Inv.setDone (h : s.Inv) (hlong : s.long) {r : ChecksumResult} (hr : checksumOf s = some r) :
    (s.setDone r).Inv :=
  { h with
    doneLong := fun _ => hlong
    doneResult := fun _ => (checksumOf_congr rfl rfl).trans hr
    notDoneZero := nofun }

/-- A freshly loaded image meets the invariant, whatever the state before. -/
theorem hostLoadImage_inv (bytes : List Byte) (s : State) : (hostLoadImage bytes s).Inv where
  imageExact := Memory.map_fst_ofBytes bytes
  parsedLong := nofun
  doneLong := nofun
  doneResult := nofun
  notDoneZero _ := ⟨rfl, rfl⟩
  noIoError := nofun
  errNoResult _ := rfl

/-- R32: resetting the block is loading the empty image. -/
theorem hostLoadImage_nil (s : State) : hostLoadImage [] s = hostResetState s := rfl

/-- R30, R31: the reset state holds the empty image, freshly loaded. -/
theorem reset_inv : State.reset.Inv := hostLoadImage_inv [] State.reset

/-! ## The invariant under commands and host operations -/

/-- R140, R112: a read-only command writes `ERR` and `RES` only. -/
theorem query_next {i : Instr} (hi : i ∈ readOnlyCommands) (h : exec i s = .next t) :
    ∃ e r, t = s.setResult e r ∧ e ≠ .ioError ∧ (e ≠ .ok → r = .none) := by
  obtain ⟨e, r, rfl, -⟩ := query_transfer hi rfl (fun _ _ _ => rfl) h
  obtain ⟨_, _, _, _, e', r', ht, he, hr⟩ := exec_next_shape h
  obtain rfl : e = e' := congrArg State.err ht
  obtain rfl : r = r' := congrArg State.res ht
  exact ⟨e, r, rfl, he, hr⟩

theorem query_keeps_inv {i : Instr} (hi : i ∈ readOnlyCommands) (hs : s.Inv) (h : exec i s = .next t) : t.Inv := by
  obtain ⟨e, r, rfl, he, hr⟩ := query_next hi h
  exact hs.setResult he hr

theorem exec_keeps_inv {i : Instr} (hs : s.Inv) (h : exec i s = .next t) : t.Inv := by
  cases i with
  | parse =>
    rcases execParse_next h with ⟨-, rfl⟩ | ⟨hl, rfl⟩
    · exact (hs.setParsed (b := false) nofun).setResult nofun fun _ => rfl
    · exact (hs.setParsed fun _ => Nat.le_of_not_lt hl).setResult nofun fun _ => rfl
  | validate =>
    rcases execValidate_next h with ⟨-, rfl⟩ | ⟨hl, r, hr, rfl⟩
    · exact hs.clearChecksum.setResult nofun fun _ => rfl
    · exact (hs.setDone (Nat.le_of_not_lt hl) hr).setResult nofun fun _ => rfl
  | load =>
    rcases execLoad_next h with ⟨-, rfl⟩ | ⟨hl, r, hr, rfl⟩
    · exact (hs.setParsed (b := false) nofun).clearChecksum.setResult nofun fun _ => rfl
    · have hlong : s.long := Nat.le_of_not_lt hl
      have hp : (s.setParsed true).Inv := hs.setParsed fun _ => hlong
      exact (hp.setDone hlong ((checksumOf_congr rfl rfl).trans hr)).setResult nofun fun _ => rfl
  | ctypeName | licenseeName | romSizeKib | ramSizeKib | titleText => exact query_keeps_inv (by decide) hs h

theorem runHostOp_keeps_inv {op : HostOp} (hs : s.Inv) (h : runHostOp op s = .next t) : t.Inv := by
  rcases runHostOp_next h with
    ⟨c, i, -, -, h⟩ | ⟨c, e, -, -, rfl⟩ | ⟨bytes, -, rfl⟩ | ⟨-, rfl⟩ | ⟨r, v, -, rfl⟩
  · exact exec_keeps_inv hs h
  · exact hs.setResult nofun fun _ => rfl
  · exact hostLoadImage_inv bytes s
  · exact hostLoadImage_nil s ▸ hostLoadImage_inv [] s
  · exact hs.setHostRead v

theorem step_keeps_inv (hs : s.Inv) (h : step s = .next t) : t.Inv := by
  rcases step_next h with ⟨-, rfl⟩ | ⟨op, rest, -, h⟩
  · exact hs
  · exact runHostOp_keeps_inv (hs.setPending rest) h

/-! ## What a step does to the image and to the queue -/

/-- R45: no command writes the image or its length, and none touches the host's side. -/
theorem exec_frame {i : Instr} (h : exec i s = .next t) :
    t.img = s.img ∧ t.len = s.len ∧ t.pending = s.pending ∧ t.hostRead = s.hostRead := by
  obtain ⟨p, c, cp, cd, e, r, rfl, -, -⟩ := exec_next_shape h
  exact ⟨rfl, rfl, rfl, rfl⟩

/-- The image after a host operation: as before, emptied by a reset, or the bytes of a load. -/
theorem runHostOp_image {op : HostOp} (h : runHostOp op s = .next t) :
    (t.img = s.img ∧ t.len = s.len) ∨ (t.img = [] ∧ t.len = 0) ∨
    ∃ bytes, op = .loadImage bytes ∧ t.img = Memory.ofBytes bytes ∧ t.len = bytes.length := by
  rcases runHostOp_next h with
    ⟨c, i, -, -, h⟩ | ⟨c, e, -, -, rfl⟩ | ⟨bytes, hop, rfl⟩ | ⟨-, rfl⟩ | ⟨r, v, -, rfl⟩
  · obtain ⟨himg, hlen, -, -⟩ := exec_frame h
    exact .inl ⟨himg, hlen⟩
  · exact .inl ⟨rfl, rfl⟩
  · exact .inr (.inr ⟨bytes, hop, rfl, rfl⟩)
  · exact .inr (.inl ⟨rfl, rfl⟩)
  · exact .inl ⟨rfl, rfl⟩

theorem runHostOp_pending {op : HostOp} (h : runHostOp op s = .next t) : t.pending = s.pending := by
  rcases runHostOp_next h with
    ⟨c, i, -, -, h⟩ | ⟨c, e, -, -, rfl⟩ | ⟨bytes, -, rfl⟩ | ⟨-, rfl⟩ | ⟨r, v, -, rfl⟩
  · obtain ⟨-, -, hpend, -⟩ := exec_frame h
    exact hpend
  all_goals rfl

/-- The image after a step, as `runHostOp_image`, with a load taken from the queue. -/
theorem step_image (h : step s = .next t) :
    (t.img = s.img ∧ t.len = s.len) ∨ (t.img = [] ∧ t.len = 0) ∨
    ∃ bytes, .loadImage bytes ∈ s.pending ∧ t.img = Memory.ofBytes bytes ∧ t.len = bytes.length := by
  rcases step_next h with ⟨-, rfl⟩ | ⟨op, rest, hq, h⟩
  · exact .inl ⟨rfl, rfl⟩
  · rcases runHostOp_image h with hsame | hempty | ⟨bytes, rfl, himg, hlen⟩
    · exact .inl hsame
    · exact .inr (.inl hempty)
    · exact .inr (.inr ⟨bytes, hq ▸ List.mem_cons_self, himg, hlen⟩)

/-- A step queues nothing: it takes the oldest operation off, if there is one. -/
theorem step_pending (h : step s = .next t) : t.pending = s.pending.tail := by
  rcases step_next h with ⟨hq, rfl⟩ | ⟨op, rest, hq, h⟩
  · rw [hq]; rfl
  · rw [hq]; exact runHostOp_pending h

theorem step_keeps_canonical_image (hs : s.img.wf) (h : step s = .next t) : t.img.wf := by
  rcases step_image h with ⟨himg, -⟩ | ⟨himg, -⟩ | ⟨bytes, -, himg, -⟩ <;> rw [himg]
  · exact hs
  · exact List.Pairwise.nil
  · exact Memory.ofBytes_wf bytes

theorem step_keeps_lenInWidth (hs : s.LenInWidth) (h : step s = .next t) : t.LenInWidth where
  lenBelow := by
    rcases step_image h with ⟨-, hlen⟩ | ⟨-, hlen⟩ | ⟨bytes, hmem, -, hlen⟩ <;> rw [hlen]
    · exact hs.lenBelow
    · exact Nat.two_pow_pos _
    · exact hs.queuedFit _ hmem
  queuedFit op hop := hs.queuedFit op (List.mem_of_mem_tail (step_pending h ▸ hop))

/-! ## The step on a queue that is known -/

theorem step_of_pending {op : HostOp} {rest : List HostOp} (h : s.pending = op :: rest) :
    step s = runHostOp op (s.setPending rest) := by
  simp only [step, runNextHostOp, h]

theorem writeCommand_of_decode {c : Byte} {i : Instr} (h : decodeByte c = .ok i) : writeCommand c s = exec i s := by
  simp only [writeCommand, h]

theorem decodeByte_encode (i : Instr) : decodeByte (encode i) = .ok i := by cases i <;> rfl

/-- R22, R70: with a command's byte written next, the step is the command. -/
theorem step_of_pending_encode {i : Instr} {rest : List HostOp} (h : s.pending = .writeCmd (encode i) :: rest) :
    step s = exec i (s.setPending rest) :=
  (step_of_pending h).trans (writeCommand_of_decode (decodeByte_encode i))

theorem decodeTableWord_encode (i : Instr) : decodeTableWord 8 (encode i).toNat = some i := by cases i <;> rfl

theorem withFetchWord_encode_pending (i : Instr) (s : State) :
    (s.withFetchWord 8 (encode i).toNat).pending = .writeCmd (encode i) :: s.pending := by
  simp only [State.withFetchWord, queueCommand, State.setPending_pending, BitVec.ofNat_toNat, BitVec.setWidth_eq]

/-! ## Commands do not look at the host's queue -/

/-- The answer with its next state, if it has one, changed by `f`. -/
def Answer.mapNext (f : State → State) : Answer → Answer
  | .next t => .next (f t)
  | .fault r => .fault r
  | .refused r => .refused r

variable {l : List HostOp}

/-- A value's continuation commutes with a change of the queue where the value is there and where it is not. -/
theorem withImage_setPending {α : Type} {v v' : Option α} {a : Nat} {k k' : α → Answer} (hv : v' = v)
    (hk : ∀ x, k' x = Answer.mapNext (State.setPending l) (k x)) :
    withImage v' a k' = Answer.mapNext (State.setPending l) (withImage v a k) := by
  subst hv
  cases v' with
  | none => rfl
  | some x => exact hk x

theorem withHeader_setPending {k : State → Answer}
    (hk : k (s.setPending l) = Answer.mapNext (State.setPending l) (k s)) :
    withHeader (s.setPending l) k = Answer.mapNext (State.setPending l) (withHeader s k) := by
  cases hp : s.parsed with
  | false => rw [withHeader_of_not_parsed hp, withHeader_of_not_parsed (s := s.setPending l) hp]; rfl
  | true => rw [withHeader_of_parsed hp, withHeader_of_parsed (s := s.setPending l) hp, hk]

theorem ite_setPending {c : Prop} [Decidable c] {x x' y y' : Answer}
    (hx : x' = Answer.mapNext (State.setPending l) x) (hy : y' = Answer.mapNext (State.setPending l) y) :
    (if c then x' else y') = Answer.mapNext (State.setPending l) (if c then x else y) := by
  rw [apply_ite (Answer.mapNext (State.setPending l)), hx, hy]

theorem finishLookup_setPending {α : Type} (v : Except ErrKind α) (f : α → Res) :
    finishLookup v f (s.setPending l) = Answer.mapNext (State.setPending l) (finishLookup v f s) := by
  cases v with
  | ok x => rfl
  | error e => rfl

theorem exec_setPending (i : Instr) (s : State) (l : List HostOp) :
    exec i (s.setPending l) = Answer.mapNext (State.setPending l) (exec i s) := by
  have hck : checksumOf (s.setPending l) = checksumOf s := checksumOf_congr rfl rfl
  cases i with
  | parse => exact ite_setPending rfl rfl
  | validate => exact ite_setPending rfl (withImage_setPending hck fun _ => rfl)
  | load => exact ite_setPending rfl (withImage_setPending hck fun _ => rfl)
  | ctypeName =>
    simp only [exec, execCtypeName]
    exact withHeader_setPending (withImage_setPending rfl fun _ => finishLookup_setPending _ _)
  | licenseeName =>
    simp only [exec, execLicenseeName]
    exact withHeader_setPending (withImage_setPending rfl fun _ => rfl)
  | romSizeKib =>
    simp only [exec, execRomSizeKib]
    exact withHeader_setPending (withImage_setPending rfl fun _ => finishLookup_setPending _ _)
  | ramSizeKib =>
    simp only [exec, execRamSizeKib]
    exact withHeader_setPending (withImage_setPending rfl fun _ => finishLookup_setPending _ _)
  | titleText =>
    simp only [exec, execTitleText]
    exact withHeader_setPending (withImage_setPending (memRead_congr rfl rfl _ _) fun _ => rfl)

/-- R13, R48: the queued commands run in the host's order, and the first that stops stops the run. -/
theorem run_queued_commands (p : List Instr) (s : State) (rest : List HostOp)
    (hq : s.pending = p.map (fun i => .writeCmd (encode i)) ++ rest) :
    Host.Core.run Sys2Proof.core p.length s = execAll p (s.setPending rest) := by
  induction p generalizing s with
  | nil => subst hq; rfl
  | cons i p ih =>
    have hstep := step_of_pending_encode hq
    have hexec := exec_setPending i s rest
    rw [exec_setPending] at hstep
    cases hx : exec i s with
    | next t =>
      rw [hx] at hstep hexec
      rw [List.length_cons, run_of_next hstep, ih _ rfl, execAll, hexec]; rfl
    | fault r =>
      rw [hx] at hstep hexec
      rw [List.length_cons, run_of_fault hstep, execAll, hexec]; rfl
    | refused r =>
      rw [hx] at hstep hexec
      rw [List.length_cons, run_of_refused hstep, execAll, hexec]; rfl

/-! ## The length-checked commands on either side of the boundary -/

theorem execParse_of_short (h : s.len < minLen) :
    execParse s = .next ((s.setParsed false).setResult .truncatedImage .none) := if_pos h

theorem execParse_of_long (h : ¬ s.len < minLen) :
    execParse s = .next ((s.setParsed true).setResult .ok .none) := if_neg h

theorem execValidate_of_short (h : s.len < minLen) :
    execValidate s = .next (s.clearChecksum.setResult .truncatedImage .none) := if_pos h

theorem execValidate_of_long (h : ¬ s.len < minLen) {r : ChecksumResult} (hr : checksumOf s = some r) :
    execValidate s = .next ((s.setDone r).setResult .ok .none) := by
  rw [execValidate, if_neg h, withImage_some hr]; rfl

theorem execLoad_of_short (h : s.len < minLen) :
    execLoad s = .next ((s.setParsed false).clearChecksum.setResult .truncatedImage .none) := if_pos h

theorem execLoad_of_long (h : ¬ s.len < minLen) {r : ChecksumResult} (hr : checksumOf s = some r) :
    execLoad s = .next (((s.setParsed true).setDone r).setResult .ok .none) := by
  rw [execLoad, if_neg h, withImage_some hr]; rfl

/-- The scan and the stored byte lie inside the header window. -/
theorem checksumOf_sameWindow (hw : s.SameWindow t) : checksumOf t = checksumOf s := by
  have hscan : scannedBytes t = scannedBytes s :=
    memRead_window fun k hk => hw _ (by simp only [ckFirst]; omega) (by simp only [ckFirst, ckCount] at *; omega)
  have hstored : fieldHchk t = fieldHchk s := hw _ (by decide) (by decide)
  rw [checksumOf, checksumOf, hscan, hstored]

/-- R14, R15: a command reads the window and the length check, nothing else of the image. -/
theorem exec_setImage_of_sameWindow {i : Instr} {m : Memory} {n : Nat} (hlen : s.len < minLen ↔ n < minLen)
    (hw : s.SameWindow (s.setImage m n)) (h : exec i s = .next t) :
    exec i (s.setImage m n) = .next (t.setImage m n) := by
  have query : i ∈ readOnlyCommands → exec i (s.setImage m n) = .next (t.setImage m n) := fun hi => by
    obtain ⟨e, r, rfl, h'⟩ := query_transfer (s := s) (s' := s.setImage m n) hi rfl
      (fun a h1 h2 => hw a (by omega) (by omega)) h
    exact h'
  cases i with
  | parse =>
    rcases execParse_next h with ⟨hl, rfl⟩ | ⟨hl, rfl⟩
    · exact execParse_of_short (hlen.mp hl)
    · exact execParse_of_long (hl ∘ hlen.mpr)
  | validate =>
    rcases execValidate_next h with ⟨hl, rfl⟩ | ⟨hl, r, hr, rfl⟩
    · exact execValidate_of_short (hlen.mp hl)
    · exact execValidate_of_long (hl ∘ hlen.mpr) ((checksumOf_sameWindow hw).trans hr)
  | load =>
    rcases execLoad_next h with ⟨hl, rfl⟩ | ⟨hl, r, hr, rfl⟩
    · exact execLoad_of_short (hlen.mp hl)
    · exact execLoad_of_long (hl ∘ hlen.mpr) ((checksumOf_sameWindow hw).trans hr)
  | ctypeName | licenseeName | romSizeKib | ramSizeKib | titleText => exact query (by decide)

/-! ## The header fields -/

theorem le16_toNat (lo hi : Byte) : (le16 lo hi).toNat = lo.toNat + 256 * hi.toNat := by
  have hlo := lo.isLt
  have hhi := hi.isLt
  simp only [le16, BitVec.toNat_add, BitVec.toNat_mul, BitVec.toNat_setWidth, BitVec.ofNat_eq_ofNat, BitVec.toNat_ofNat]
  omega

theorem be16_toNat (hi lo : Byte) : (be16 hi lo).toNat = 256 * hi.toNat + lo.toNat := by
  have hlo := lo.isLt
  have hhi := hi.isLt
  simp only [be16, BitVec.toNat_add, BitVec.toNat_mul, BitVec.toNat_setWidth, BitVec.ofNat_eq_ofNat, BitVec.toNat_ofNat]
  omega

theorem imgHalf_eq_some {f : Byte → Byte → Half} {a : Nat} {v : Half} (h : imgHalf f s a = some v) :
    ∃ b0 b1, imgByte s a = some b0 ∧ imgByte s (a + 1) = some b1 ∧ v = f b0 b1 := by
  unfold imgHalf at h
  split at h
  · exact ⟨_, _, ‹_›, ‹_›, (Option.some.inj h).symm⟩
  · cases h

theorem imgHalf_of_some {f : Byte → Byte → Half} {a : Nat} {b0 b1 : Byte} (h0 : imgByte s a = some b0)
    (h1 : imgByte s (a + 1) = some b1) : imgHalf f s a = some (f b0 b1) := by
  simp only [imgHalf, h0, h1]

/-- A field of raw bytes, in the form `HeaderMatches` states it. -/
theorem memRead_bytes {a n : Nat} {bs : List Byte} (h : memRead s a n = some bs) :
    bs.length = n ∧ ∀ k, k < n → bs[k]? = imgByte s (a + k) := by
  obtain ⟨hlen, hbytes⟩ := memRead_eq_some h
  exact ⟨hlen, fun k hk => (hbytes k hk).symm⟩

/-- R12: an extracted header holds the image's fields. -/
theorem headerMatches_of_extractHeader {h : RomHeader} (hx : extractHeader s = some h) :
    HeaderMatches (imgByte s) h := by
  obtain ⟨hentry, hlogo, htitle, hlic, hsgb, hctype, hromsz, hramsz, hdest, holdlic, hversion, hhchk, hgchk⟩ :=
    (extractHeader_eq_some_iff s h).mp hx
  obtain ⟨lo, hi, hlo, hhi, hlicv⟩ := imgHalf_eq_some hlic
  obtain ⟨ghi, glo, hghi, hglo, hgv⟩ := imgHalf_eq_some hgchk
  exact
    { entryPoint := memRead_bytes hentry
      logo := memRead_bytes hlogo
      title := memRead_bytes htitle
      licenseeCode := ⟨lo, hi, hlo, hhi, hlicv ▸ le16_toNat lo hi⟩
      sgbFlag := hsgb
      cartridgeType := hctype
      romSize := hromsz
      ramSize := hramsz
      destinationCode := hdest
      oldLicenseeCode := holdlic
      maskRomVersionNumber := hversion
      headerChecksum := hhchk
      globalChecksum := ⟨ghi, glo, hghi, hglo, hgv ▸ be16_toNat ghi glo⟩ }

/-- R47: in a long exact image every header field has its bytes. -/
theorem extractHeader_exists (hs : s.Inv) (hlong : s.long) : ∃ h, extractHeader s = some h := by
  have byte (a : Nat) (ha : a < 0x150) : ∃ b, imgByte s a = some b :=
    imgByte_isSome_of_exact hs.imageExact (Nat.lt_of_lt_of_le ha hlong)
  have bytes (a n : Nat) (ha : a + n ≤ 0x150) : ∃ bs, memRead s a n = some bs :=
    memRead_exists_of_exact hs.imageExact (Nat.le_trans ha hlong)
  have half (f : Byte → Byte → Half) (a : Nat) (ha : a + 1 < 0x150) : ∃ v, imgHalf f s a = some v := by
    obtain ⟨b0, h0⟩ := byte a (by omega)
    obtain ⟨b1, h1⟩ := byte (a + 1) ha
    exact ⟨_, imgHalf_of_some h0 h1⟩
  obtain ⟨entry, hentry⟩ := bytes 0x100 4 (by decide)
  obtain ⟨logo, hlogo⟩ := bytes 0x104 48 (by decide)
  obtain ⟨title, htitle⟩ := bytes 0x134 titleLen (by decide)
  obtain ⟨lic, hlic⟩ := half le16 0x144 (by decide)
  obtain ⟨sgb, hsgb⟩ := byte 0x146 (by decide)
  obtain ⟨ctype, hctype⟩ := byte 0x147 (by decide)
  obtain ⟨romsz, hromsz⟩ := byte 0x148 (by decide)
  obtain ⟨ramsz, hramsz⟩ := byte 0x149 (by decide)
  obtain ⟨dest, hdest⟩ := byte 0x14A (by decide)
  obtain ⟨oldlic, holdlic⟩ := byte 0x14B (by decide)
  obtain ⟨version, hversion⟩ := byte 0x14C (by decide)
  obtain ⟨hchk, hhchk⟩ := byte ckStored (by decide)
  obtain ⟨gchk, hgchk⟩ := half be16 0x14E (by decide)
  exact ⟨⟨entry, logo, title, lic, sgb, ctype, romsz, ramsz, dest, oldlic, version, hchk, gchk⟩,
    (extractHeader_eq_some_iff s _).mpr
      ⟨hentry, hlogo, htitle, hlic, hsgb, hctype, hromsz, hramsz, hdest, holdlic, hversion, hhchk, hgchk⟩⟩

theorem headerView_of_parsed (hp : s.parsed = true) : headerView s = extractHeader s := if_pos hp

/-! ## Reads -/

theorem readView_of_not_parsed {α : Type} {r : HostReg} {a : Nat} {v : Option α} {f : α → HostValue}
    (hp : s.parsed = false) : readView r a v f s = .refused (.viewUndefined r) :=
  if_neg (Bool.eq_false_iff.mp hp)

/-- R27: no view can be read before a parse. -/
theorem hostReadReg_view_of_not_parsed {r : HostReg} (hr : r.isHeaderView = true) (hp : s.parsed = false) :
    hostReadReg r s = .refused (.viewUndefined r) := by
  cases r with
  | status | err | res | len | ckComputed | ckPassed | ckDone | parsed | headerValid | cmd => cases hr
  | hEntry | hLogo | hTitle | hLicensee | hSgb | hCtype | hRomsz | hRamsz | hDest | hOldlic | hVersion | hHchk
  | hGchk => exact readView_of_not_parsed hp

theorem checksumResult_of_not_done (hd : s.ckDone = false) : checksumResult s = none :=
  if_neg (Bool.eq_false_iff.mp hd)

/-! ## Codes -/

/-- The error kind a code stands for; the reserved codes 8..15 stand for none and give the last kind. -/
def ErrKind.ofCode (c : BitVec 4) : ErrKind :=
  match c.toNat with
  | 0 => .ok
  | 1 => .ioError
  | 2 => .truncatedImage
  | 3 => .unsupportedCartridgeType
  | 4 => .unsupportedRomSize
  | 5 => .unsupportedRamSize
  | 6 => .noHeader
  | _ => .illegalCommand

theorem ErrKind.ofCode_code (e : ErrKind) : ErrKind.ofCode e.code = e := by cases e <;> rfl

/-! `STATUS` is `ERR`'s code with four bits appended at the low end, one after the other (R23). -/

theorem getLsbD_append_ofBool_zero {w : Nat} (x : BitVec w) (b : Bool) : (x ++ BitVec.ofBool b).getLsbD 0 = b := by
  rw [BitVec.getLsbD_append]
  simp

theorem getLsbD_append_ofBool_succ {w : Nat} (x : BitVec w) (b : Bool) (k : Nat) :
    (x ++ BitVec.ofBool b).getLsbD (k + 1) = x.getLsbD k := by
  simp [BitVec.getLsbD_append]

theorem status_getLsbD_zero (s : State) : (status s).getLsbD 0 = s.parsed :=
  getLsbD_append_ofBool_zero _ _

theorem status_getLsbD_one (s : State) : (status s).getLsbD 1 = s.ckDone :=
  (getLsbD_append_ofBool_succ _ _ 0).trans (getLsbD_append_ofBool_zero _ _)

theorem status_getLsbD_two (s : State) : (status s).getLsbD 2 = s.ckPassed :=
  (getLsbD_append_ofBool_succ _ _ 1).trans <| (getLsbD_append_ofBool_succ _ _ 0).trans
    (getLsbD_append_ofBool_zero _ _)

/-- The three flags stand below the zero bit and the code. -/
theorem status_getLsbD_add_three (s : State) (k : Nat) :
    (status s).getLsbD (k + 3) = (s.err.code ++ BitVec.ofBool false).getLsbD k :=
  (getLsbD_append_ofBool_succ _ _ (k + 2)).trans <| (getLsbD_append_ofBool_succ _ _ (k + 1)).trans
    (getLsbD_append_ofBool_succ _ _ k)

theorem status_getLsbD_three (s : State) : (status s).getLsbD 3 = false :=
  (status_getLsbD_add_three s 0).trans (getLsbD_append_ofBool_zero _ _)

theorem status_extractLsb' (s : State) : (status s).extractLsb' 4 4 = s.err.code := by
  apply BitVec.eq_of_getLsbD_eq
  intro k hk
  calc ((status s).extractLsb' 4 4).getLsbD k = (status s).getLsbD (k + 1 + 3) := by
        simp only [BitVec.getLsbD_extractLsb', hk, decide_true, Bool.true_and, Nat.add_comm 4 k]
    _ = s.err.code.getLsbD k := (status_getLsbD_add_three s (k + 1)).trans (getLsbD_append_ofBool_succ _ _ k)

end Facts

/-! ## The obligations -/

/-- Settles O38: each update a step makes keeps the invariant. -/
theorem stepKeepsInvariant : Obligations.StepKeepsInvariant := by
  unfold Obligations.StepKeepsInvariant
  exact fun _ _ => step_keeps_inv

/-- Settles O6, by induction on the commands queued. -/
theorem commandsRunInHostOrder : Obligations.CommandsRunInHostOrder := by
  unfold Obligations.CommandsRunInHostOrder
  exact run_queued_commands

/-- Settles O40: a step leaves the image, empties it or loads it in canonical form. -/
theorem stepKeepsCanonicalImage : Obligations.StepKeepsCanonicalImage := by
  unfold Obligations.StepKeepsCanonicalImage
  exact ⟨List.Pairwise.nil, fun _ _ => step_keeps_canonical_image⟩

/-- Settles O41: a new length is that of a queued image, and a step queues nothing. -/
theorem lenStaysInWidth : Obligations.LenStaysInWidth := by
  unfold Obligations.LenStaysInWidth
  exact ⟨⟨Nat.two_pow_pos _, nofun⟩, fun _ _ => step_keeps_lenInWidth⟩

/-- Settles O45: every image read of a command lies in the window. -/
theorem bytesOutsideHeaderIrrelevant : Obligations.BytesOutsideHeaderIrrelevant := by
  unfold Obligations.BytesOutsideHeaderIrrelevant
  exact fun _ _ _ _ _ => exec_setImage_of_sameWindow

/-- Settles O48. -/
theorem hostLoadImageEffect : Obligations.HostLoadImageEffect := by
  unfold Obligations.HostLoadImageEffect
  exact fun s bytes => ⟨hostLoadImage bytes s, rfl, rfl, imgByte_hostLoadImage bytes s, Memory.ofBytes_wf bytes,
    rfl, rfl, rfl, rfl, rfl, rfl, rfl, rfl⟩

/-- Settles O51. -/
theorem undefinedReadsRefused : Obligations.UndefinedReadsRefused := by
  unfold Obligations.UndefinedReadsRefused
  refine fun s r => ⟨hostReadReg_view_of_not_parsed, ?_, fun hs hd => ?_⟩
  · rintro rfl
    rfl
  · exact ⟨checksumResult_of_not_done hd, hs.notDoneZero hd⟩

/-- Settles O52: with the header long enough to exist, each view hands over its field. -/
theorem viewReadsGiveFields : Obligations.ViewReadsGiveFields := by
  unfold Obligations.ViewReadsGiveFields
  intro s hs hp
  obtain ⟨h, hx⟩ := extractHeader_exists hs (hs.parsedLong hp)
  obtain ⟨hentry, hlogo, htitle, hlic, hsgb, hctype, hromsz, hramsz, hdest, holdlic, hversion, hhchk, hgchk⟩ :=
    (extractHeader_eq_some_iff s h).mp hx
  exact ⟨h, (headerView_of_parsed hp).trans hx, headerMatches_of_extractHeader hx,
    readView_of_some hp hentry, readView_of_some hp hlogo, readView_of_some hp htitle, readView_of_some hp hlic,
    readView_of_some hp hsgb, readView_of_some hp hctype, readView_of_some hp hromsz, readView_of_some hp hramsz,
    readView_of_some hp hdest, readView_of_some hp holdlic, readView_of_some hp hversion,
    readView_of_some hp hhchk, readView_of_some hp hgchk⟩

/-- Settles O53. -/
theorem hostReadsHaveNoSideEffect : Obligations.HostReadsHaveNoSideEffect := by
  unfold Obligations.HostReadsHaveNoSideEffect
  exact fun _ _ _ => hostReadReg_next

/-- Settles O4. -/
theorem stepRunsDecodedCommand : Obligations.StepRunsDecodedCommand := by
  unfold Obligations.StepRunsDecodedCommand
  refine fun s op rest hq => ⟨step_of_pending hq, fun c i hop hd => ?_⟩
  subst hop
  exact (step_of_pending hq).trans (writeCommand_of_decode hd)

/-- Settles O5. -/
theorem fetchWordRunsItsCommand : Obligations.FetchWordRunsItsCommand := by
  unfold Obligations.FetchWordRunsItsCommand
  exact fun s i => ⟨decodeTableWord_encode i, step_of_pending_encode (withFetchWord_encode_pending i s)⟩

/-- Settles O34: `ErrKind.ofCode` undoes `ErrKind.code`. -/
theorem errorCodes : Obligations.ErrorCodes := by
  unfold Obligations.ErrorCodes
  exact ⟨rfl, rfl, rfl, rfl, rfl, rfl, rfl, rfl, fun _ _ h => Function.LeftInverse.injective ErrKind.ofCode_code h⟩

/-- Settles O39. -/
theorem resetMeetsInvariant : Obligations.ResetMeetsInvariant := by
  unfold Obligations.ResetMeetsInvariant
  exact reset_inv

/-- Settles O46. -/
theorem resetValues : Obligations.ResetValues := by
  unfold Obligations.ResetValues
  exact ⟨rfl, rfl, fun a => imgByte_eq_none_of_le (Nat.zero_le a), rfl, rfl, rfl, rfl, rfl, rfl, rfl, rfl,
    checksumResult_of_not_done rfl⟩

/-- Settles O49. -/
theorem hostResetEffect : Obligations.HostResetEffect := by
  unfold Obligations.HostResetEffect
  exact fun s => ⟨rfl, congrArg Host.Outcome.next (hostLoadImage_nil s)⟩

/-- Settles O50: `STATUS` is packed from its four elements. -/
theorem statusBits : Obligations.StatusBits := by
  unfold Obligations.StatusBits
  exact fun s => ⟨status_getLsbD_zero s, status_getLsbD_one s, status_getLsbD_two s, status_getLsbD_three s,
    status_extractLsb' s⟩

/-- Settles O54: each plain read delivers its register. -/
theorem plainReadsGiveRegisters : Obligations.PlainReadsGiveRegisters := by
  unfold Obligations.PlainReadsGiveRegisters
  exact fun s => ⟨rfl, rfl, rfl, rfl, rfl, rfl, rfl, rfl, rfl⟩

end Sys2Proof.Machine
end

section
/-! PROOFS. The statement of 20_memory.md: no command byte writes the image. -/

namespace Sys2Proof.Machine

open Sys2Proof

/-- R45: a legal byte runs its command, whose frame holds the image; a reserved byte only raises `IllegalCommand`. -/
theorem writeCommand_image {c : Byte} {s t : State} (h : writeCommand c s = .next t) :
    t.img = s.img ∧ t.len = s.len := by
  rcases writeCommand_next h with ⟨i, -, hexec⟩ | ⟨e, -, rfl⟩
  · obtain ⟨himg, hlen, -, -⟩ := exec_frame hexec
    exact ⟨himg, hlen⟩
  · exact ⟨s.setResult_img _ _, s.setResult_len _ _⟩

/-- Settles O33: with the image and its length as before, every byte reads as before. -/
theorem imageImmutable : Obligations.ImageImmutable := by
  unfold Obligations.ImageImmutable
  intro c s t h
  obtain ⟨himg, hlen⟩ := writeCommand_image h
  exact ⟨himg, hlen, imgByte_congr himg hlen⟩

end Sys2Proof.Machine
end

section
/-! PROOFS. The statements of 30_encoding.md: the command codes, the reserved bytes, the title text and the integer
results. -/

namespace Sys2Proof.Machine

open Sys2Proof

/-! ## Decoding undoes encoding -/

/-- R70, R71: every row compares the whole byte with the code of its own command. -/
theorem opTable_row : ∀ r ∈ opTable, r.mask = 0xFF ∧ encode r.instr = r.code := by decide

/-- R70, R71: a byte decodes to a command exactly when it is the command's code. -/
theorem decodeByte_eq_ok_iff {c : Byte} {i : Instr} : decodeByte c = .ok i ↔ c = encode i := by
  constructor
  · intro h
    unfold decodeByte at h
    split at h
    next r hr =>
      cases h
      obtain ⟨hmask, hcode⟩ := opTable_row r (List.mem_of_find?_eq_some hr)
      have hmatch : c &&& r.mask = r.code := by simpa using List.find?_some hr
      calc c = c &&& 0xFF := BitVec.and_allOnes.symm
        _ = encode r.instr := by rw [← hmask, hmatch, hcode]
    next => cases h
  · rintro rfl
    exact decodeByte_encode i

/-- R72: the byte decoder's only rejection names the byte. -/
theorem decodeByte_error {c : Byte} {e : DecodeReject} (h : decodeByte c = .error e) : e = .reservedCommand c := by
  unfold decodeByte at h
  split at h
  · cases h
  · exact (Except.error.inj h).symm

/-- R70: the codes are 0x01..0x08. -/
theorem encode_range (i : Instr) : encode i ≠ 0x00 ∧ encode i < 0x09 := by cases i <;> decide

/-- R70, R72: 0x00 and every byte from 0x09 up is no command's code, so the decoder rejects it. -/
theorem decodeByte_reserved {c : Byte} (hc : c = 0x00 ∨ 0x09 ≤ c) : decodeByte c = .error (.reservedCommand c) := by
  cases h : decodeByte c with
  | error e => rw [decodeByte_error h]
  | ok i =>
    obtain rfl := decodeByte_eq_ok_iff.mp h
    obtain ⟨hne, hlt⟩ := encode_range i
    exact absurd hc (not_or.mpr ⟨hne, BitVec.not_le.mpr hlt⟩)

/-- R73: a program of at least one byte decodes when its first byte and the rest do. -/
theorem decodeProgram_cons_eq_ok_iff {c : Byte} {rest : List Byte} {is : List Instr} :
    decodeProgram (c :: rest) = .ok is ↔
      ∃ i js, decodeByte c = .ok i ∧ decodeProgram rest = .ok js ∧ is = i :: js := by
  rw [decodeProgram]
  cases decodeByte c with
  | error e => simp
  | ok i =>
    cases decodeProgram rest with
    | error e => simp
    | ok js => simp [eq_comm]

/-- R70, R71, R73: decoding a program inverts encoding it, byte by byte. -/
theorem decodeProgram_eq_ok_iff {bytes : List Byte} {is : List Instr} :
    decodeProgram bytes = .ok is ↔ bytes = is.map encode := by
  induction bytes generalizing is with
  | nil => simp [decodeProgram, eq_comm]
  | cons c rest ih =>
    rw [decodeProgram_cons_eq_ok_iff, eq_comm (a := c :: rest), List.map_eq_cons_iff]
    simp only [decodeByte_eq_ok_iff, ih]
    constructor
    · rintro ⟨i, js, rfl, rfl, rfl⟩
      exact ⟨i, js, rfl, rfl, rfl⟩
    · rintro ⟨i, js, rfl, rfl, rfl⟩
      exact ⟨i, js, rfl, rfl, rfl⟩

/-- Settles O2, by induction on the bytes. -/
theorem programEncodingRoundTrip : Obligations.ProgramEncodingRoundTrip := by
  unfold Obligations.ProgramEncodingRoundTrip
  exact fun _ _ => decodeProgram_eq_ok_iff

/-- Settles O1: the eight codes are those of `encode`. -/
theorem commandBytesDecode : Obligations.CommandBytesDecode := by
  unfold Obligations.CommandBytesDecode
  exact ⟨decodeByte_encode .parse, decodeByte_encode .validate, decodeByte_encode .ctypeName,
    decodeByte_encode .licenseeName, decodeByte_encode .romSizeKib, decodeByte_encode .ramSizeKib,
    decodeByte_encode .load, decodeByte_encode .titleText, fun _ => decodeByte_reserved⟩

/-! ## A reserved byte -/

/-- R72: a byte the decoder rejects only raises `IllegalCommand`. -/
theorem writeCommand_of_error {c : Byte} {e : DecodeReject} {s : State} (h : decodeByte c = .error e) :
    writeCommand c s = .next (s.setResult .illegalCommand .none) := by
  simp only [writeCommand, h, illegalCommand, raise]

/-- Settles O3. -/
theorem reservedByteIsIllegal : Obligations.ReservedByteIsIllegal := by
  unfold Obligations.ReservedByteIsIllegal
  exact ⟨rfl, fun _ _ hc => writeCommand_of_error (decodeByte_reserved hc)⟩

/-! ## The title text -/

/-- Where the title text of 16 bytes ends: at the first zero once byte 15 is forced to zero (R63). -/
def titleEnd (t : List Byte) : Nat := (t.set 15 0).findIdx (fun b => b == 0)

theorem titleTextOf_eq_take (t : List Byte) : titleTextOf t = (t.set 15 0).take (titleEnd t) := by
  simp only [titleTextOf, titleEnd, List.takeWhile_eq_take_findIdx_not, bne, Bool.not_not]

/-- The forced zero bounds the text. -/
theorem titleEnd_le (t : List Byte) : titleEnd t ≤ 15 := by
  by_contra hlt
  have hforced := List.not_of_lt_findIdx (Nat.lt_of_not_le hlt)
  simp at hforced

/-- No byte of the text is zero. -/
theorem getElem?_ne_zero_of_lt_titleEnd {t : List Byte} {k : Nat} (hk : k < titleEnd t) : t[k]? ≠ some 0 := by
  have hk15 : 15 ≠ k := (Nat.lt_of_lt_of_le hk (titleEnd_le t)).ne'
  intro hzero
  obtain ⟨hlen, hzero⟩ := List.getElem?_eq_some_iff.mp hzero
  have hbefore := List.not_of_lt_findIdx hk
  simp [List.getElem_set_of_ne hk15, hzero] at hbefore

/-- A text of fewer than 15 bytes ends at a zero of the title itself. -/
theorem getElem?_titleEnd {t : List Byte} (ht : t.length = 16) (hn : titleEnd t < 15) : t[titleEnd t]? = some 0 := by
  have hlen : titleEnd t < (t.set 15 0).length := by rw [List.length_set]; omega
  have hzero : (t.set 15 0)[titleEnd t] = 0 := beq_iff_eq.mp (List.findIdx_getElem (w := hlen))
  rw [← List.getElem?_set_ne (Nat.ne_of_gt hn), List.getElem?_eq_getElem hlen, hzero]

/-- Settles O11: the text ends at the first zero, which stands at byte 15 or before. -/
theorem titleTextEndsAtFirstZero : Obligations.TitleTextEndsAtFirstZero := by
  unfold Obligations.TitleTextEndsAtFirstZero
  exact fun t ht => ⟨titleEnd t, titleEnd_le t,
    (titleTextOf_eq_take t).trans (List.take_set_of_le (titleEnd_le t)),
    fun _ => getElem?_ne_zero_of_lt_titleEnd, getElem?_titleEnd ht⟩

/-! ## The integers a command can return -/

/-- R93: an answer of `romKib` is `32 * 2^code` for one of the codes 0..8. -/
theorem romKib_ok {code : Byte} {n : Half} (h : romKib code = .ok n) :
    code.toNat ≤ 8 ∧ n = BitVec.ofNat 16 (32 * 2 ^ code.toNat) := by
  unfold romKib romCodeMax at h
  split at h
  · cases h
  · exact ⟨by omega, (Except.ok.inj h).symm⟩

/-- R77, R93: the nine powers. -/
theorem romKib_ok_listed {code : Byte} {n : Half} (h : romKib code = .ok n) :
    n.toNat ∈ [32, 64, 128, 256, 512, 1024, 2048, 4096, 8192] := by
  have hpowers : ∀ k ≤ 8, (BitVec.ofNat 16 (32 * 2 ^ k)).toNat ∈
      [32, 64, 128, 256, 512, 1024, 2048, 4096, 8192] := by decide
  obtain ⟨hcode, rfl⟩ := romKib_ok h
  exact hpowers _ hcode

/-- R95: an answer of `ramKib` is the table's entry. -/
theorem ramKib_ok {code : Byte} {n : Half} (h : ramKib code = .ok n) : ramTable[code.toNat]? = some n := by
  unfold ramKib at h
  split at h
  next k hk => exact hk.trans (congrArg some (Except.ok.inj h))
  next => cases h

/-- R77, R95: the table's values. -/
theorem ramKib_ok_listed {code : Byte} {n : Half} (h : ramKib code = .ok n) : n.toNat ∈ [0, 8, 32, 64, 128] := by
  have htable : ramTable.map BitVec.toNat ⊆ [0, 8, 32, 64, 128] := by decide
  exact htable (List.mem_map_of_mem (List.mem_of_getElem? (ramKib_ok h)))

/-- An integer in `RES` after a lookup is the value looked up. -/
theorem lookup_res_int {α : Type} {v : Except ErrKind α} {f : α → Res} {s t : State} {n : Half}
    (h : (∃ x, v = .ok x ∧ t = s.setResult .ok (f x)) ∨ (∃ e, v = .error e ∧ t = s.setResult e .none))
    (hres : t.res = .int n) : ∃ x, v = .ok x ∧ f x = .int n := by
  rcases h with ⟨x, hx, rfl⟩ | ⟨e, -, rfl⟩
  · exact ⟨x, hx, hres⟩
  · cases hres

/-- R77: a command whose result is an integer is one of the two size commands, and the integer is its lookup's. -/
theorem exec_res_int {i : Instr} {s t : State} {n : Half} (h : exec i s = .next t) (hres : t.res = .int n) :
    (i = .romSizeKib ∧ ∃ code, romKib code = .ok n) ∨ (i = .ramSizeKib ∧ ∃ code, ramKib code = .ok n) := by
  cases i with
  | parse => rcases execParse_next h with ⟨-, rfl⟩ | ⟨-, rfl⟩ <;> cases hres
  | validate => rcases execValidate_next h with ⟨-, rfl⟩ | ⟨-, r, -, rfl⟩ <;> cases hres
  | load => rcases execLoad_next h with ⟨-, rfl⟩ | ⟨-, r, -, rfl⟩ <;> cases hres
  | titleText => rcases execTitleText_next h with ⟨-, rfl⟩ | ⟨-, bs, -, rfl⟩ <;> cases hres
  | licenseeName => rcases execLicenseeName_next h with ⟨-, rfl⟩ | ⟨-, key, -, rfl⟩ <;> cases hres
  | ctypeName =>
    rcases execCtypeName_next h with ⟨-, rfl⟩ | ⟨-, code, -, h⟩
    · cases hres
    · obtain ⟨x, -, hx⟩ := lookup_res_int h hres
      cases hx
  | romSizeKib =>
    rcases execRomSizeKib_next h with ⟨-, rfl⟩ | ⟨-, code, -, h⟩
    · cases hres
    · obtain ⟨x, hx, ⟨⟩⟩ := lookup_res_int h hres
      exact .inl ⟨rfl, code, hx⟩
  | ramSizeKib =>
    rcases execRamSizeKib_next h with ⟨-, rfl⟩ | ⟨-, code, -, h⟩
    · cases hres
    · obtain ⟨x, hx, ⟨⟩⟩ := lookup_res_int h hres
      exact .inr ⟨rfl, code, hx⟩

/-- Settles O26: only the size commands return integers, and their lookups' values are listed. -/
theorem integerResultsListed : Obligations.IntegerResultsListed := by
  unfold Obligations.IntegerResultsListed
  intro i s t n h hres
  rcases exec_res_int h hres with ⟨hi, code, hn⟩ | ⟨hi, code, hn⟩
  · exact .inl ⟨hi, romKib_ok_listed hn⟩
  · exact .inr ⟨hi, ramKib_ok_listed hn⟩

end Sys2Proof.Machine
end

section
/-! PROOFS. The statements of 40_lookup_tables.md: where each lookup answers and with what. -/

namespace Sys2Proof.Machine

open Sys2Proof

/-! ## The cartridge type -/

theorem ctypeLookup_of_lt {code : Byte} (h : code.toNat < 35) :
    ctypeLookup code = .ok (ctypeTable ⟨code.toNat, h⟩) := dif_pos h

theorem ctypeLookup_of_ge {code : Byte} (h : 0x23 ≤ code.toNat) :
    ctypeLookup code = .error .unsupportedCartridgeType := dif_neg (Nat.not_lt.mpr h)

theorem ctypeTable_zero : ctypeTable 0 = strRomOnly := if_pos rfl

theorem ctypeTable_one : ctypeTable 1 = strMbc1 := (if_neg (by decide)).trans (if_pos rfl)

/-- Settles O19: the two pinned codes read their table entries. -/
theorem ctypeLookupDomain : Obligations.CtypeLookupDomain := by
  unfold Obligations.CtypeLookupDomain
  exact ⟨(ctypeLookup_of_lt (by decide)).trans (congrArg _ ctypeTable_zero),
    (ctypeLookup_of_lt (by decide)).trans (congrArg _ ctypeTable_one),
    fun _ => ⟨ctypeLookup_of_ge, ctypeLookup_of_lt⟩⟩

/-! ## The licensee -/

theorem licLookup_of_gt {key : Half} (h : 0xA4 < key.toNat) : licLookup key = strUnknown :=
  dif_neg (Nat.not_lt.mpr h)

/-- R92: where the table has a name, the lookup gives it. -/
theorem licLookup_of_some {key : Half} {h : key.toNat < 165} {name : Str}
    (hname : licTable ⟨key.toNat, h⟩ = some name) : licLookup key = name := by
  simp only [licLookup, dif_pos h, hname, Option.getD_some]

/-- R92: where the table has a hole, the lookup still answers. -/
theorem licLookup_of_none {key : Half} {h : key.toNat < 165}
    (hhole : licTable ⟨key.toNat, h⟩ = none) : licLookup key = strUnknown := by
  simp only [licLookup, dif_pos h, hhole, Option.getD_none]

theorem licTable_0x00 : licTable 0x00 = some strNone := if_pos rfl

theorem licTable_0x31 : licTable 0x31 = some strNintendo := (if_neg (by decide)).trans (if_pos rfl)

theorem licTable_0x02 : licTable 0x02 = none :=
  (if_neg (by decide)).trans ((if_neg (by decide)).trans (if_pos rfl))

/-- Settles O20: the keys above the table, its names and its holes; of the pinned keys two have a name and one is
a hole. -/
theorem licenseeLookupNeverFails : Obligations.LicenseeLookupNeverFails := by
  unfold Obligations.LicenseeLookupNeverFails
  exact ⟨licLookup_of_some (h := by decide) licTable_0x00,
    licLookup_of_some (h := by decide) licTable_0x31,
    licLookup_of_none (h := by decide) licTable_0x02, rfl,
    fun _ => ⟨licLookup_of_gt, fun _ => ⟨fun _ => licLookup_of_some, licLookup_of_none⟩⟩⟩

/-! ## The ROM and RAM sizes -/

theorem romKib_of_gt {code : Byte} (h : 8 < code.toNat) : romKib code = .error .unsupportedRomSize := if_pos h

theorem romKib_of_le {code : Byte} (h : code.toNat ≤ 8) :
    romKib code = .ok (BitVec.ofNat 16 (32 * 2 ^ code.toNat)) := if_neg (Nat.not_lt.mpr h)

/-- R93: the largest ROM size, `32 * 2^8`, fits the 16-bit result, so the power is exact. -/
theorem romKib_value_exact {k : Nat} (h : k ≤ 8) : (BitVec.ofNat 16 (32 * 2 ^ k)).toNat = 32 * 2 ^ k := by
  have hpow : 2 ^ k ≤ 2 ^ 8 := Nat.pow_le_pow_right (by decide) h
  rw [BitVec.toNat_ofNat, Nat.mod_eq_of_lt (by omega)]

/-- R95: the lookup answers with the table's entry where there is one; converse of `ramKib_ok`. -/
theorem ramKib_of_some {code : Byte} {n : Half} (h : ramTable[code.toNat]? = some n) : ramKib code = .ok n := by
  simp only [ramKib, h]

theorem ramKib_of_gt {code : Byte} (h : 5 < code.toNat) : ramKib code = .error .unsupportedRamSize := by
  have hnone : ramTable[code.toNat]? = none := List.getElem?_eq_none h
  simp only [ramKib, hnone]

/-- R95: every code up to 5 has an entry in the table. -/
theorem ramKib_of_le {code : Byte} (h : code.toNat ≤ 5) :
    ∃ n, ramKib code = .ok n ∧ (ramTable.map BitVec.toNat)[code.toNat]? = some n.toNat := by
  have hentry := List.getElem?_eq_getElem (l := ramTable) (Nat.lt_succ_of_le h)
  exact ⟨_, ramKib_of_some hentry, by rw [List.getElem?_map, hentry, Option.map_some]⟩

/-- Settles O21: each lookup on either side of its bound. -/
theorem sizeLookups : Obligations.SizeLookups := by
  unfold Obligations.SizeLookups
  exact fun _ => ⟨romKib_of_gt, fun h => ⟨_, romKib_of_le h, romKib_value_exact h⟩, ramKib_of_gt, ramKib_of_le⟩

end Sys2Proof.Machine
end

section
/-! PROOFS. The statements of 41_header_view.md: `PARSE`, `TITLE_TEXT`, the frames of the length-checked commands and
the idempotence of every command. -/

namespace Sys2Proof.Machine

open Sys2Proof

section Facts

variable {s t : State}

/-! ## The header view after `PARSE` -/

theorem headerView_of_not_parsed (hp : s.parsed = false) : headerView s = none := if_neg (Bool.eq_false_iff.mp hp)

/-- R12, R27, R47: while `PARSED = 1` the view exists and holds the image's fields. -/
theorem headerView_matches (hs : s.Inv) (hp : s.parsed = true) :
    ∃ h, headerView s = some h ∧ HeaderMatches (imgByte s) h := by
  obtain ⟨h, hx⟩ := extractHeader_exists hs (hs.parsedLong hp)
  exact ⟨h, (headerView_of_parsed hp).trans hx, headerMatches_of_extractHeader hx⟩

/-- R110: `PARSE` leaves `PARSED` set exactly when it leaves no error. -/
theorem execParse_parsed (h : execParse s = .next t) :
    (t.err = .ok ∧ t.parsed = true) ∨ (t.err ≠ .ok ∧ t.parsed = false) := by
  rcases execParse_next h with ⟨-, rfl⟩ | ⟨-, rfl⟩
  · exact .inr ⟨nofun, rfl⟩
  · exact .inl ⟨rfl, rfl⟩

/-- R110, R111: the header view after `PARSE`, whose state keeps the invariant and the image. -/
theorem parse_headerView (hs : s.Inv) (h : exec .parse s = .next t) :
    (t.err = .ok → ∃ h, headerView t = some h ∧ HeaderMatches (imgByte s) h) ∧
    (t.err ≠ .ok → headerView t = none) := by
  obtain ⟨himg, hlen, -, -⟩ := exec_frame h
  have hbytes : imgByte t = imgByte s := funext (imgByte_congr himg hlen)
  rcases execParse_parsed h with ⟨hok, hp⟩ | ⟨herr, hp⟩
  · exact ⟨fun _ => hbytes ▸ headerView_matches (exec_keeps_inv hs h) hp, fun herr => absurd hok herr⟩
  · exact ⟨fun hok => absurd hok herr, fun _ => headerView_of_not_parsed hp⟩

/-- R114: `PARSE` reads `LEN` and no byte, so its answer carries over to any image of that length. -/
theorem exec_parse_replaceImg (m : Memory) (h : exec .parse s = .next t) :
    exec .parse { s with img := m } = .next { t with img := m } := by
  rcases execParse_next h with ⟨hl, rfl⟩ | ⟨hl, rfl⟩
  · exact execParse_of_short (s := { s with img := m }) hl
  · exact execParse_of_long (s := { s with img := m }) hl

/-! ## Both sides of `TITLE_TEXT` -/

theorem execTitleText_of_not_parsed (hp : s.parsed = false) :
    execTitleText s = .next (s.setResult .noHeader .none) :=
  withHeader_of_not_parsed hp

theorem execTitleText_of_parsed (hp : s.parsed = true) {bs : List Byte} (hbs : fieldTitle s = some bs) :
    execTitleText s = .next (s.setResult .ok (.text (titleTextOf bs))) := by
  rw [execTitleText, withHeader_of_parsed hp, withImage_some hbs, succeed]

/-! ## What the length-checked commands leave -/

/-- R110: the flags `PARSE` writes do not include the checksum registers. -/
theorem execParse_checksum (h : execParse s = .next t) :
    t.ckDone = s.ckDone ∧ t.ckPassed = s.ckPassed ∧ t.ckComputed = s.ckComputed := by
  rcases execParse_next h with ⟨-, rfl⟩ | ⟨-, rfl⟩ <;> exact ⟨rfl, rfl, rfl⟩

/-- R130: nor do those of `VALIDATE` include `PARSED`. -/
theorem execValidate_parsed (h : execValidate s = .next t) : t.parsed = s.parsed := by
  rcases execValidate_next h with ⟨-, rfl⟩ | ⟨-, r, -, rfl⟩ <;> rfl

/-- R45: with the image and its length kept by every command, so is every byte. -/
theorem exec_imgByte {i : Instr} (h : exec i s = .next t) (a : Nat) : imgByte t a = imgByte s a := by
  obtain ⟨himg, hlen, -, -⟩ := exec_frame h
  exact imgByte_congr himg hlen a

/-! ## A command issued again -/

/-- R140, R112: a read-only command writes none of what it reads, so its answer carries over to the state it left,
where it writes the same `ERR` and `RES` over themselves. -/
theorem query_idempotent {i : Instr} (hi : i ∈ readOnlyCommands) (h : exec i s = .next t) :
    exec i t = .next t := by
  obtain ⟨e, r, rfl, -⟩ := query_transfer hi rfl (fun _ _ _ => rfl) h
  obtain ⟨e', r', heq, hagain⟩ :=
    query_transfer (s' := s.setResult e r) hi (s.setResult_parsed e r) (fun _ _ _ => imgByte_congr rfl rfl _) h
  calc exec i (s.setResult e r) = .next (s.setResult e' r') := hagain
    _ = .next (s.setResult e r) := by rw [heq]

/-- R115, R136, R163, R200: a length-checked command finds the same length and the same checksum the second time. -/
theorem exec_idempotent {i : Instr} (h : exec i s = .next t) : exec i t = .next t := by
  cases i with
  | parse =>
    rcases execParse_next h with ⟨hl, rfl⟩ | ⟨hl, rfl⟩
    · exact execParse_of_short hl
    · exact execParse_of_long hl
  | validate =>
    rcases execValidate_next h with ⟨hl, rfl⟩ | ⟨hl, r, hr, rfl⟩
    · exact execValidate_of_short hl
    · exact execValidate_of_long hl ((checksumOf_congr rfl rfl).trans hr)
  | load =>
    rcases execLoad_next h with ⟨hl, rfl⟩ | ⟨hl, r, hr, rfl⟩
    · exact execLoad_of_short hl
    · exact execLoad_of_long hl ((checksumOf_congr rfl rfl).trans hr)
  | ctypeName | licenseeName | romSizeKib | ramSizeKib | titleText => exact query_idempotent (by decide) h

end Facts

/-! ## The obligations -/

/-- Settles O8: the two sides of the length check, and the view each leaves. -/
theorem parseEffect : Obligations.ParseEffect := by
  unfold Obligations.ParseEffect
  exact ⟨decodeByte_encode .parse, rfl, rfl,
    fun _ => ⟨execParse_of_short, fun hl => execParse_of_long (Nat.not_lt.mpr hl), fun _ => parse_headerView⟩⟩

/-- Settles O9: the length check decides the same way over both images. -/
theorem parseIgnoresContents : Obligations.ParseIgnoresContents := by
  unfold Obligations.ParseIgnoresContents
  exact fun _ _ => exec_parse_replaceImg

/-- Settles O32: the frame of every command, with the registers each of the three leaves. -/
theorem lengthCheckedFrame : Obligations.LengthCheckedFrame := by
  unfold Obligations.LengthCheckedFrame
  refine ⟨fun s t h => ?_, fun s t h => ?_, fun s t h => ?_⟩ <;> obtain ⟨-, hlen, hpend, hread⟩ := exec_frame h
  · obtain ⟨hdone, hpassed, hcomputed⟩ := execParse_checksum h
    exact ⟨hlen, exec_imgByte h, hdone, hpassed, hcomputed, hpend, hread⟩
  · exact ⟨hlen, exec_imgByte h, execValidate_parsed h, hpend, hread⟩
  · exact ⟨hlen, exec_imgByte h, hpend, hread⟩

/-- Settles O43: every command reads only what it does not write. -/
theorem commandsIdempotent : Obligations.CommandsIdempotent := by
  unfold Obligations.CommandsIdempotent
  exact fun _ _ _ => exec_idempotent

/-- Settles O10: `TITLE_TEXT` with and without a header. -/
theorem titleTextEffect : Obligations.TitleTextEffect := by
  unfold Obligations.TitleTextEffect
  exact ⟨decodeByte_encode .titleText, rfl, rfl,
    fun _ => ⟨execTitleText_of_not_parsed, fun _ hp => execTitleText_of_parsed hp⟩⟩

end Sys2Proof.Machine
end

section
/-! PROOFS. The statements of 42_checksum_validator.md: one step of the scan, its closed form, `VALIDATE`, and the
commands that do not look at the checksum registers. -/

namespace Sys2Proof.Machine

open Sys2Proof

section Facts

variable {s t : State}

/-! ## One step of the scan -/

/-- R132: subtracting a byte and one more is adding the byte's one's complement. -/
theorem ckStep_eq_add_not (acc b : Byte) : ckStep acc b = acc + ~~~b := by
  calc acc - b - 1 = acc + (-b - 1) := by rw [sub_eq_add_neg acc, add_sub_assoc]
    _ = acc + ~~~b := congrArg (acc + ·) (BitVec.not_eq_neg_add b).symm

theorem ckStep_toNat (acc b : Byte) : (ckStep acc b).toNat = (acc.toNat + (255 - b.toNat)) % 256 := by
  rw [ckStep_eq_add_not, BitVec.toNat_add, BitVec.toNat_not]

/-- R132: in integers `acc + (255 - b)` and `acc - b - 1` differ by 256. -/
theorem ckStep_toNat_int (acc b : Byte) :
    ((ckStep acc b).toNat : Int) = ((acc.toNat : Int) - b.toNat - 1) % 256 := by
  have hb := b.isLt
  rw [ckStep_toNat]
  omega

/-! ## The scan as a function of the sum -/

variable {bs cs : List Byte}

/-- R134: 25 decrements are an addition of `-25 mod 256 = 231`. -/
theorem checksumScan_eq (h : bs.length = 25) : checksumScan bs = 231 - bs.sum := by
  calc checksumScan bs = 0 - (bs.sum + BitVec.ofNat 8 bs.length) := foldl_ckStep bs 0
    _ = 231 - bs.sum := by rw [h, add_comm, ← sub_sub]; rfl

/-- The 8-bit sum of bytes is their sum in natural numbers, reduced. -/
theorem byte_sum_eq_ofNat (bs : List Byte) : bs.sum = BitVec.ofNat 8 (bs.map BitVec.toNat).sum := by
  induction bs with
  | nil => rfl
  | cons b bs ih =>
    rw [List.sum_cons, ih, List.map_cons, List.sum_cons, BitVec.ofNat_add, BitVec.ofNat_toNat, BitVec.setWidth_eq]

/-- R134: the closed form in integers. -/
theorem checksumScan_toNat_int (h : bs.length = 25) :
    ((checksumScan bs).toNat : Int) = (231 - ((bs.map BitVec.toNat).sum : Int)) % 256 := by
  rw [checksumScan_eq h, byte_sum_eq_ofNat, BitVec.toNat_sub, BitVec.toNat_ofNat]
  simp only [BitVec.ofNat_eq_ofNat, BitVec.toNat_ofNat]
  omega

theorem checksumScan_perm (h : bs.length = 25) (hp : cs.Perm bs) : checksumScan cs = checksumScan bs := by
  rw [checksumScan_eq h, checksumScan_eq (hp.length_eq.trans h), hp.sum_eq]

/-- R134: a change of `+d` in one byte changes the sum by `d`, hence the scan by `-d`. -/
theorem checksumScan_set_add {k : Nat} {b d : Byte} (h : bs.length = 25) (hk : bs[k]? = some b) :
    checksumScan (bs.set k (b + d)) = checksumScan bs - d := by
  obtain ⟨hlt, rfl⟩ := List.getElem?_eq_some_iff.mp hk
  have hsum : (bs.set k (bs[k] + d)).sum = bs.sum + d := by
    rw [List.sum_set', dif_pos hlt, neg_add_cancel_left]
  rw [checksumScan_eq h, checksumScan_eq (List.length_set.trans h), hsum, sub_sub]

/-! ## What `VALIDATE` reads -/

/-- `MemRead` in terms of the bytes at its offsets, ascending. -/
theorem memRead_eq_map_range' {a n : Nat} {b : Nat → Byte}
    (h : ∀ k, a ≤ k → k < a + n → imgByte s k = some (b k)) :
    memRead s a n = some ((List.range' a n).map b) := by
  induction n generalizing a with
  | zero => rfl
  | succ n ih =>
    have hfirst := h a (by omega) (by omega)
    have hrest := ih (a := a + 1) fun k h1 h2 => h k (by omega) (by omega)
    simp only [memRead, hfirst, hrest, List.range'_succ, List.map_cons]

/-- R131, R133: the checksum result, from the 25 bytes and the stored one. -/
theorem checksumOf_of_some {stored : Byte} (hbs : memRead s 0x134 25 = some bs)
    (hstored : imgByte s 0x14D = some stored) :
    checksumOf s = some { computed := checksumScan bs, passed := decide (checksumScan bs = stored) } := by
  simp only [checksumOf, scannedBytes, fieldHchk, ckFirst, ckCount, ckStored, hbs, hstored]; rfl

/-- R130: `VALIDATE` on a long image that has the bytes it reads. -/
theorem execValidate_of_bytes {stored : Byte} (hl : 0x150 ≤ s.len) (hbs : memRead s 0x134 25 = some bs)
    (hstored : imgByte s 0x14D = some stored) :
    execValidate s = .next ((s.setChecksum (checksumScan bs) (decide (checksumScan bs = stored)) true).setResult
      .ok .none) :=
  execValidate_of_long (Nat.not_lt.mpr hl) (checksumOf_of_some hbs hstored)

/-! ## What the read-only commands do not read -/

/-- R135, R140: a read-only command's answer depends on `PARSED` and the image, which a change of the checksum
registers leaves, and its own write does not reach those registers. -/
theorem query_setChecksum {i : Instr} (hi : i ∈ readOnlyCommands) (c : Byte) (p d : Bool)
    (h : exec i s = .next t) : exec i (s.setChecksum c p d) = .next (t.setChecksum c p d) := by
  obtain ⟨e, r, rfl, hanswer⟩ :=
    query_transfer hi (s.setChecksum_parsed c p d) (fun _ _ _ => imgByte_congr rfl rfl _) h
  exact hanswer

end Facts

/-! ## The obligations -/

/-- Settles O13: the scan of the bytes read is the fold over their offsets. -/
theorem scanCoversTwentyFiveBytes : Obligations.ScanCoversTwentyFiveBytes := by
  unfold Obligations.ScanCoversTwentyFiveBytes
  intro s b stored hl hbytes hstored
  have hbs : memRead s 0x134 25 = some ((List.range' 0x134 25).map b) :=
    memRead_eq_map_range' fun a h1 h2 => hbytes a h1 (Nat.le_of_lt_succ h2)
  exact ⟨_, execValidate_of_bytes hl hbs hstored, List.foldl_map⟩

/-- Settles O15: the scan depends on the bytes through their sum. -/
theorem scanClosedForm : Obligations.ScanClosedForm := by
  unfold Obligations.ScanClosedForm
  exact fun _ h => ⟨checksumScan_toNat_int h, fun _ => checksumScan_perm h⟩

/-- Settles O16: subtracting a nonzero byte changes the value. -/
theorem singleCorruptionDetected : Obligations.SingleCorruptionDetected := by
  unfold Obligations.SingleCorruptionDetected
  intro bs k b d h hk
  have hset : checksumScan (bs.set k (b + d)) = checksumScan bs - d := checksumScan_set_add h hk
  exact ⟨hset, fun hd heq => hd (sub_eq_self.mp (hset.symm.trans heq))⟩

/-- Settles O18. -/
theorem queriesIgnoreChecksum : Obligations.QueriesIgnoreChecksum := by
  unfold Obligations.QueriesIgnoreChecksum
  exact fun _ _ _ c p d hi => query_setChecksum hi c p d

/-- Settles O12: the two sides of the length check. -/
theorem validateEffect : Obligations.ValidateEffect := by
  unfold Obligations.ValidateEffect
  exact ⟨decodeByte_encode .validate, rfl, rfl, fun _ => ⟨execValidate_of_short, fun _ _ => execValidate_of_bytes⟩⟩

/-- Settles O14. -/
theorem scanStepModulo256 : Obligations.ScanStepModulo256 := by
  unfold Obligations.ScanStepModulo256
  exact fun acc b => ⟨ckStep_toNat_int acc b, ckStep_toNat acc b⟩

end Sys2Proof.Machine
end

section
/-! PROOFS. The statements of 43_decoder_facade.md: the frame of the read-only commands, and each façade command with
and without a header. -/

namespace Sys2Proof.Machine

open Sys2Proof

section Facts

variable {s t : State}

/-! ## Without a header, a read-only command raises `NoHeader` -/

/-- R140 (a), R112. -/
theorem query_of_not_parsed {i : Instr} (hi : i ∈ readOnlyCommands) (hp : s.parsed = false) :
    exec i s = .next (s.setResult .noHeader .none) := by
  simp only [readOnlyCommands, List.mem_cons, List.not_mem_nil, or_false] at hi
  rcases hi with rfl | rfl | rfl | rfl | rfl <;>
    simp only [exec, execCtypeName, execLicenseeName, execRomSizeKib, execRamSizeKib, execTitleText,
      withHeader_of_not_parsed hp]

/-! ## With a header, a façade command is its lookup -/

theorem execCtypeName_of_parsed (hp : s.parsed = true) {code : Byte} (hcode : fieldCtype s = some code) :
    execCtypeName s = finishLookup (ctypeLookup code) .text s := by
  rw [execCtypeName, withHeader_of_parsed hp, withImage_some hcode]

theorem execRomSizeKib_of_parsed (hp : s.parsed = true) {code : Byte} (hcode : fieldRomsz s = some code) :
    execRomSizeKib s = finishLookup (romKib code) .int s := by
  rw [execRomSizeKib, withHeader_of_parsed hp, withImage_some hcode]

theorem execRamSizeKib_of_parsed (hp : s.parsed = true) {code : Byte} (hcode : fieldRamsz s = some code) :
    execRamSizeKib s = finishLookup (ramKib code) .int s := by
  rw [execRamSizeKib, withHeader_of_parsed hp, withImage_some hcode]

theorem execLicenseeName_of_parsed (hp : s.parsed = true) {key : Half} (hkey : fieldLicensee s = some key) :
    execLicenseeName s = .next (s.setResult .ok (.text (licLookup key))) := by
  rw [execLicenseeName, withHeader_of_parsed hp, withImage_some hkey, succeed]

/-- R8, R41: the licensee key is the 16-bit number whose low byte stands at 0x144 and whose high byte at 0x145. -/
theorem fieldLicensee_of_bytes {b0 b1 : Byte} {key : Half} (h0 : imgByte s 0x144 = some b0)
    (h1 : imgByte s 0x145 = some b1) (hkey : key.toNat = b0.toNat + 256 * b1.toNat) :
    fieldLicensee s = some key := by
  obtain rfl : le16 b0 b1 = key := BitVec.eq_of_toNat_eq ((le16_toNat b0 b1).trans hkey.symm)
  exact imgHalf_of_some h0 h1

end Facts

/-! ## The obligations -/

/-- Settles O31: an answer of a read-only command is the state before with `ERR` and `RES` written. -/
theorem queryFrame : Obligations.QueryFrame := by
  unfold Obligations.QueryFrame
  intro i s t hi h
  have hbytes := exec_imgByte h
  obtain ⟨e, r, rfl, -, -⟩ := query_next hi h
  exact ⟨rfl, hbytes, rfl, rfl, rfl, rfl, rfl, rfl⟩

/-- Settles O22: the two sides of `ctype_lookup`'s bound. -/
theorem ctypeNameEffect : Obligations.CtypeNameEffect := by
  unfold Obligations.CtypeNameEffect
  refine ⟨decodeByte_encode .ctypeName, rfl, rfl, rfl,
    fun s => ⟨query_of_not_parsed (by decide), fun code hp hcode => ?_⟩⟩
  have hexec := execCtypeName_of_parsed hp hcode
  exact ⟨fun h => hexec.trans (finishLookup_error (ctypeLookup_of_ge h)),
    fun h => hexec.trans (finishLookup_ok (ctypeLookup_of_lt h))⟩

/-- Settles O23: the key's value determines it. -/
theorem licenseeNameEffect : Obligations.LicenseeNameEffect := by
  unfold Obligations.LicenseeNameEffect
  exact ⟨decodeByte_encode .licenseeName, rfl, rfl, fun s => ⟨query_of_not_parsed (by decide),
    fun _ _ _ hp h0 h1 hkey => execLicenseeName_of_parsed hp (fieldLicensee_of_bytes h0 h1 hkey)⟩⟩

/-- Settles O24: the two sides of `rom_kib`'s bound. -/
theorem romSizeKibEffect : Obligations.RomSizeKibEffect := by
  unfold Obligations.RomSizeKibEffect
  refine ⟨decodeByte_encode .romSizeKib, rfl, rfl, rfl,
    fun s => ⟨query_of_not_parsed (by decide), fun code hp hcode => ?_⟩⟩
  have hexec := execRomSizeKib_of_parsed hp hcode
  exact ⟨fun h => hexec.trans (finishLookup_error (romKib_of_gt h)),
    fun h => ⟨_, romKib_value_exact h, hexec.trans (finishLookup_ok (romKib_of_le h))⟩⟩

/-- Settles O25: the two sides of `ram_kib`'s bound. -/
theorem ramSizeKibEffect : Obligations.RamSizeKibEffect := by
  unfold Obligations.RamSizeKibEffect
  refine ⟨decodeByte_encode .ramSizeKib, rfl, rfl, rfl,
    fun s => ⟨query_of_not_parsed (by decide), fun code hp hcode => ?_⟩⟩
  have hexec := execRamSizeKib_of_parsed hp hcode
  refine ⟨fun h => hexec.trans (finishLookup_error (ramKib_of_gt h)), fun h => ?_⟩
  obtain ⟨n, hlookup, hentry⟩ := ramKib_of_le h
  exact ⟨n, hentry, hexec.trans (finishLookup_ok hlookup)⟩

end Sys2Proof.Machine
end

section
/-! PROOFS. The statements of 44_load_cartridge.md: `LOAD` on both sides of the length check, `LOAD` against `PARSE`
and `VALIDATE`, and the result of `load_cartridge` on a complete buffer. -/

namespace Sys2Proof.Machine

open Sys2Proof

section Facts

variable {s t : State}

/-! ## `LOAD` as `VALIDATE` after `PARSE` -/

/-- R161: on a short image both raise `TruncatedImage`, with `PARSED` cleared before the checksum registers. -/
theorem execLoad_eq_execValidate_of_short (h : s.len < minLen) :
    execLoad s = execValidate ((s.setParsed false).setResult .truncatedImage .none) :=
  (execLoad_of_short h).trans (execValidate_of_short (s := (s.setParsed false).setResult .truncatedImage .none) h).symm

/-- R160, R161: past the length check `LOAD` stops where the scan lacks a byte. -/
theorem execLoad_of_absent (h : ¬ s.len < minLen) (hr : checksumOf s = none) :
    execLoad s = .fault (.imgAbsent ckFirst) := by
  rw [execLoad, if_neg h, hr, withImage]

/-- R130: `VALIDATE` stops there too. -/
theorem execValidate_of_absent (h : ¬ s.len < minLen) (hr : checksumOf s = none) :
    execValidate s = .fault (.imgAbsent ckFirst) := by
  rw [execValidate, if_neg h, hr, withImage]

/-- R161: on a long image `PARSE` writes nothing the scan reads, so both find the same checksum result or lack the
same byte. -/
theorem execLoad_eq_execValidate_of_long (h : ¬ s.len < minLen) :
    execLoad s = execValidate ((s.setParsed true).setResult .ok .none) := by
  have hlong : ¬ ((s.setParsed true).setResult .ok .none).len < minLen := h
  have hck : checksumOf ((s.setParsed true).setResult .ok .none) = checksumOf s := checksumOf_congr rfl rfl
  cases hr : checksumOf s with
  | some r => exact (execLoad_of_long h hr).trans (execValidate_of_long hlong (hck.trans hr)).symm
  | none => exact (execLoad_of_absent h hr).trans (execValidate_of_absent hlong (hck.trans hr)).symm

/-! ## `LOAD` on a long image -/

/-- R160: `LOAD` on a long image that has the bytes it reads. -/
theorem execLoad_of_bytes {bs : List Byte} {stored : Byte} (hl : 0x150 ≤ s.len) (hbs : memRead s 0x134 25 = some bs)
    (hstored : imgByte s 0x14D = some stored) :
    execLoad s = .next (((s.setParsed true).setChecksum (checksumScan bs) (decide (checksumScan bs = stored))
      true).setResult .ok .none) :=
  execLoad_of_long (Nat.not_lt.mpr hl) (checksumOf_of_some hbs hstored)

theorem checksumResult_of_done (hd : s.ckDone = true) :
    checksumResult s = some { computed := s.ckComputed, passed := s.ckPassed } := if_pos hd

theorem loadResult_of_some {h : RomHeader} {c : ChecksumResult} (hh : headerView s = some h)
    (hc : checksumResult s = some c) :
    loadResult s = some { headerValid := s.ckPassed, header := h, checksum := c } := by
  simp only [loadResult, hh, hc]

/-- R162: the state `LOAD` leaves on a long image holds a LoadResult: the image's header, read through the view that
the parse made valid, and the image's checksum. -/
theorem execLoad_loadResult (hs : s.Inv) (hl : s.long) {r : ChecksumResult} (hr : checksumOf s = some r) :
    ∃ h t, execLoad s = .next t ∧ loadResult t = some { headerValid := r.passed, header := h, checksum := r } ∧
      HeaderMatches (imgByte s) h ∧ t.ckPassed = r.passed ∧ t.err = .ok := by
  have hload := execLoad_of_long (Nat.not_lt.mpr hl) hr
  have hinv : (((s.setParsed true).setDone r).setResult .ok .none).Inv := exec_keeps_inv (i := .load) hs hload
  obtain ⟨h, hview, hmatch⟩ := headerView_matches hinv rfl
  have hbytes := funext (exec_imgByte (i := .load) hload)
  exact ⟨h, _, hload, loadResult_of_some hview (checksumResult_of_done rfl), hbytes ▸ hmatch, rfl, rfl⟩

/-! ## The boundary operation -/

/-- R75: `load_cartridge` on a complete buffer answers the LoadResult of the state in which `LOAD` leaves the block. -/
theorem loadCartridge_of_load {bytes : List Byte} {r : LoadResult} (hload : execLoad (hostLoadImage bytes s) = .next t)
    (hr : loadResult t = some r) : loadCartridge (.complete bytes) s = .next (.ok r, t) := by
  simp only [loadCartridge, hload, hr]

/-- R131, R133: the checksum result of a freshly loaded buffer, from the buffer's own bytes. -/
theorem checksumOf_hostLoadImage {bytes : List Byte} (s : State) (hl : 0x150 ≤ bytes.length) :
    checksumOf (hostLoadImage bytes s) = some
      { computed := checksumScan ((bytes.drop 0x134).take 25),
        passed := decide (checksumScan ((bytes.drop 0x134).take 25) = bytes[0x14D]) } := by
  have hbyte := imgByte_hostLoadImage bytes s
  have hscan : memRead (hostLoadImage bytes s) 0x134 25 = some ((bytes.drop 0x134).take 25) :=
    memRead_eq_slice hbyte (by omega)
  exact checksumOf_of_some hscan ((hbyte 0x14D).trans (List.getElem?_eq_getElem (by omega)))

end Facts

/-! ## The obligations -/

/-- Settles O28: `PARSE` takes the side of the length check that `LOAD` takes, and leaves `VALIDATE` the rest. -/
theorem loadIsParseThenValidate : Obligations.LoadIsParseThenValidate := by
  unfold Obligations.LoadIsParseThenValidate
  intro s
  by_cases h : s.len < minLen
  · exact ⟨_, execParse_of_short h, execLoad_eq_execValidate_of_short h⟩
  · exact ⟨_, execParse_of_long h, execLoad_eq_execValidate_of_long h⟩

/-- Settles O29: a freshly loaded buffer meets the invariant and reads as its bytes, so the LoadResult is the
buffer's. -/
theorem loadCartridgeReturnsHeader : Obligations.LoadCartridgeReturnsHeader := by
  unfold Obligations.LoadCartridgeReturnsHeader
  intro bytes s hl
  obtain ⟨h, t, hload, hresult, hmatch, hpassed, herr⟩ :=
    execLoad_loadResult (hostLoadImage_inv bytes s) hl (checksumOf_hostLoadImage s hl)
  have hbytes : imgByte (hostLoadImage bytes s) = fun a => bytes[a]? := funext (imgByte_hostLoadImage bytes s)
  have hstored : bytes[0x14D]? = some bytes[0x14D] := List.getElem?_eq_getElem (by omega)
  refine ⟨_, t, loadCartridge_of_load hload hresult, hbytes ▸ hmatch, rfl, ?_, rfl, hpassed, herr⟩
  exact decide_eq_true_iff.trans (eq_comm.trans (by rw [hstored, Option.some_inj]))

/-- Settles O27: the two sides of the length check. -/
theorem loadEffect : Obligations.LoadEffect := by
  unfold Obligations.LoadEffect
  exact ⟨decodeByte_encode .load, rfl, rfl, fun _ => ⟨execLoad_of_short, fun _ _ => execLoad_of_bytes⟩⟩

end Sys2Proof.Machine
end

section
/-! PROOFS. The statements of 60_exceptions.md: every command and host operation completes, the error each command
byte reports, the failures of `load_cartridge`, and instances that do not touch each other. -/

namespace Sys2Proof.Machine

open Sys2Proof

section Facts

variable {s t : State}

/-! ## The checksum of a long image -/

/-- R47: the scan and the stored byte lie inside a long exact image. -/
theorem checksumOf_exists (hs : s.Inv) (hlong : s.long) : ∃ r, checksumOf s = some r := by
  have hscan : 0x134 + 25 ≤ s.len := Nat.le_trans (by decide) hlong
  have hbyte : 0x14D < s.len := Nat.lt_of_lt_of_le (by decide) hlong
  obtain ⟨bs, hbs⟩ := memRead_exists_of_exact hs.imageExact hscan
  obtain ⟨stored, hstored⟩ := imgByte_isSome_of_exact hs.imageExact hbyte
  exact ⟨_, checksumOf_of_some hbs hstored⟩

/-- R133: the comparison is with the byte stored at 0x14D. -/
theorem checksumOf_passed_iff {r : ChecksumResult} (hr : checksumOf s = some r) :
    r.passed = true ↔ imgByte s 0x14D = some r.computed := by
  unfold checksumOf at hr
  split at hr
  next bs stored _ hstored =>
    obtain rfl := Option.some.inj hr
    calc (checksumScan bs == stored) = true ↔ stored = checksumScan bs := beq_iff_eq.trans eq_comm
      _ ↔ fieldHchk s = some (checksumScan bs) := by rw [hstored, Option.some_inj]
  next => cases hr

/-! ## Every command completes -/

theorem finishLookup_exists {α : Type} (v : Except ErrKind α) (f : α → Res) (s : State) :
    ∃ t, finishLookup v f s = .next t := by
  cases v with
  | ok x => exact ⟨_, finishLookup_ok rfl⟩
  | error e => exact ⟨_, finishLookup_error rfl⟩

/-- R140, R112: a read-only command has no header, or has its field of it. -/
theorem query_exists {i : Instr} (hi : i ∈ readOnlyCommands) (hs : s.Inv) : ∃ t, exec i s = .next t := by
  cases hp : s.parsed with
  | false => exact ⟨_, query_of_not_parsed hi hp⟩
  | true =>
    obtain ⟨h, hx⟩ := extractHeader_exists hs (hs.parsedLong hp)
    obtain ⟨-, -, htitle, hlic, -, hctype, hromsz, hramsz, -⟩ := (extractHeader_eq_some_iff s h).mp hx
    simp only [readOnlyCommands, List.mem_cons, List.not_mem_nil, or_false] at hi
    rcases hi with rfl | rfl | rfl | rfl | rfl
    · exact (finishLookup_exists _ _ s).imp fun _ => (execCtypeName_of_parsed hp hctype).trans
    · exact ⟨_, execLicenseeName_of_parsed hp hlic⟩
    · exact (finishLookup_exists _ _ s).imp fun _ => (execRomSizeKib_of_parsed hp hromsz).trans
    · exact (finishLookup_exists _ _ s).imp fun _ => (execRamSizeKib_of_parsed hp hramsz).trans
    · exact ⟨_, execTitleText_of_parsed hp htitle⟩

/-- R180: a length-checked command decides by `LEN`, and on a long image the scan has its bytes. -/
theorem exec_exists (hs : s.Inv) (i : Instr) : ∃ t, exec i s = .next t := by
  cases i with
  | parse =>
    by_cases hl : s.len < minLen
    · exact ⟨_, execParse_of_short hl⟩
    · exact ⟨_, execParse_of_long hl⟩
  | validate =>
    by_cases hl : s.len < minLen
    · exact ⟨_, execValidate_of_short hl⟩
    · obtain ⟨r, hr⟩ := checksumOf_exists hs (Nat.le_of_not_lt hl)
      exact ⟨_, execValidate_of_long hl hr⟩
  | load =>
    by_cases hl : s.len < minLen
    · exact ⟨_, execLoad_of_short hl⟩
    · obtain ⟨r, hr⟩ := checksumOf_exists hs (Nat.le_of_not_lt hl)
      exact ⟨_, execLoad_of_long hl hr⟩
  | ctypeName | licenseeName | romSizeKib | ramSizeKib | titleText => exact query_exists (by decide) hs

theorem writeCommand_exists (hs : s.Inv) (c : Byte) : ∃ t, writeCommand c s = .next t := by
  cases hd : decodeByte c with
  | ok i => exact writeCommand_of_decode hd ▸ exec_exists hs i
  | error e => exact ⟨_, writeCommand_of_error hd⟩

/-! ## Every host operation with an answer completes -/

/-- R27, R28: a register that can be read and has a value answers. -/
theorem hostReadReg_exists (hs : s.Inv) {r : HostReg} (hcmd : r ≠ .cmd)
    (hview : r.isHeaderView = true → s.parsed = true) : ∃ t, hostReadReg r s = .next t := by
  cases r with
  | status | err | res | len | ckComputed | ckPassed | ckDone | parsed | headerValid => exact ⟨_, rfl⟩
  | cmd => exact absurd rfl hcmd
  | hEntry | hLogo | hTitle | hLicensee | hSgb | hCtype | hRomsz | hRamsz | hDest | hOldlic | hVersion | hHchk
  | hGchk =>
    obtain ⟨h, -, -, hentry, hlogo, htitle, hlic, hsgb, hctype, hromsz, hramsz, hdest, holdlic, hversion, hhchk,
      hgchk⟩ := viewReadsGiveFields s hs (hview rfl)
    exact ⟨_, by assumption⟩

theorem runHostOp_exists (hs : s.Inv) {op : HostOp}
    (hread : ∀ r, op = .readReg r → r ≠ .cmd ∧ (r.isHeaderView = true → s.parsed = true)) :
    ∃ t, runHostOp op s = .next t := by
  cases op with
  | writeCmd c => exact writeCommand_exists hs c
  | loadImage bytes => exact ⟨_, rfl⟩
  | hostReset => exact ⟨_, rfl⟩
  | readReg r =>
    obtain ⟨hcmd, hview⟩ := hread r rfl
    exact hostReadReg_exists hs hcmd hview

theorem step_of_pending_nil (h : s.pending = []) : step s = .next s := by
  simp only [step, runNextHostOp, h]

/-! ## Which error a command reports -/

theorem writeCommand_encode (i : Instr) (s : State) : writeCommand (encode i) s = exec i s :=
  writeCommand_of_decode (decodeByte_encode i)

/-- R179: `PARSE`, `VALIDATE` and `LOAD` check the length and nothing else. -/
theorem exec_err_of_lengthChecked {i : Instr} (hi : i = .parse ∨ i = .validate ∨ i = .load)
    (h : exec i s = .next t) : t.err = if s.len < minLen then .truncatedImage else .ok := by
  rcases hi with rfl | rfl | rfl
  · rcases execParse_next h with ⟨hl, rfl⟩ | ⟨hl, rfl⟩
    · exact (if_pos hl).symm
    · exact (if_neg hl).symm
  · rcases execValidate_next h with ⟨hl, rfl⟩ | ⟨hl, r, -, rfl⟩
    · exact (if_pos hl).symm
    · exact (if_neg hl).symm
  · rcases execLoad_next h with ⟨hl, rfl⟩ | ⟨hl, r, -, rfl⟩
    · exact (if_pos hl).symm
    · exact (if_neg hl).symm

theorem query_err_of_not_parsed {i : Instr} (hi : i ∈ readOnlyCommands) (hp : s.parsed = false)
    (h : exec i s = .next t) : t.err = .noHeader := by
  obtain rfl := Host.Outcome.next.inj ((query_of_not_parsed hi hp).symm.trans h)
  rfl

/-- R90: a lookup that fails with `e` exactly where `bad` holds ends with that error there, and without one
elsewhere. -/
theorem finishLookup_err {α : Type} {v : Except ErrKind α} {f : α → Res} {bad : Prop} [Decidable bad] {e : ErrKind}
    (hbad : bad → v = .error e) (hgood : ¬ bad → ∃ x, v = .ok x) (h : finishLookup v f s = .next t) :
    t.err = if bad then e else .ok := by
  by_cases hb : bad
  · rw [finishLookup_error (hbad hb)] at h
    obtain rfl := Host.Outcome.next.inj h
    exact (if_pos hb).symm
  · obtain ⟨x, hx⟩ := hgood hb
    rw [finishLookup_ok hx] at h
    obtain rfl := Host.Outcome.next.inj h
    exact (if_neg hb).symm

theorem execCtypeName_err (h : execCtypeName s = .next t) (hp : s.parsed = true) {code : Byte}
    (hcode : imgByte s 0x147 = some code) :
    t.err = if 0x23 ≤ code.toNat then .unsupportedCartridgeType else .ok :=
  finishLookup_err ctypeLookup_of_ge (fun hb => ⟨_, ctypeLookup_of_lt (Nat.lt_of_not_le hb)⟩)
    ((execCtypeName_of_parsed hp hcode).symm.trans h)

theorem execRomSizeKib_err (h : execRomSizeKib s = .next t) (hp : s.parsed = true) {code : Byte}
    (hcode : imgByte s 0x148 = some code) :
    t.err = if 8 < code.toNat then .unsupportedRomSize else .ok :=
  finishLookup_err romKib_of_gt (fun hb => ⟨_, romKib_of_le (Nat.le_of_not_lt hb)⟩)
    ((execRomSizeKib_of_parsed hp hcode).symm.trans h)

theorem execRamSizeKib_err (h : execRamSizeKib s = .next t) (hp : s.parsed = true) {code : Byte}
    (hcode : imgByte s 0x149 = some code) :
    t.err = if 5 < code.toNat then .unsupportedRamSize else .ok :=
  finishLookup_err ramKib_of_gt (fun hb => (ramKib_of_le (Nat.le_of_not_lt hb)).imp fun _ => And.left)
    ((execRamSizeKib_of_parsed hp hcode).symm.trans h)

/-- R142: with a header `LICENSEE_NAME` cannot fail. -/
theorem execLicenseeName_err (h : execLicenseeName s = .next t) (hp : s.parsed = true) : t.err = .ok := by
  rcases execLicenseeName_next h with ⟨hf, -⟩ | ⟨-, key, -, rfl⟩
  · exact absurd (hf.symm.trans hp) Bool.false_ne_true
  · rfl

/-- R112: nor can `TITLE_TEXT`. -/
theorem execTitleText_err (h : execTitleText s = .next t) (hp : s.parsed = true) : t.err = .ok := by
  rcases execTitleText_next h with ⟨hf, -⟩ | ⟨-, bs, -, rfl⟩
  · exact absurd (hf.symm.trans hp) Bool.false_ne_true
  · rfl

/-! ## `load_cartridge` without a result -/

theorem loadResult_of_no_header (h : headerView s = none) : loadResult s = none := by
  simp only [loadResult, h]

/-- R75: without a LoadResult `load_cartridge` reports the error `LOAD` left. -/
theorem loadCartridge_of_no_result {bytes : List Byte} (hload : execLoad (hostLoadImage bytes s) = .next t)
    (hr : loadResult t = none) : loadCartridge (.complete bytes) s = .next (.error t.err, t) := by
  simp only [loadCartridge, hload, hr]

/-! ## Instances -/

/-- R186: a step of copy `k` among `n` puts that copy's own next state at `k`. -/
theorem stepInstance_next {n : Nat} {k : Fin n} {sys sys' : Vector State n} (h : stepInstance k sys = .next sys') :
    ∃ t, step sys[k] = .next t ∧ sys' = sys.set k t := by
  unfold stepInstance at h
  split at h
  · exact ⟨_, ‹_›, (Host.Outcome.next.inj h).symm⟩
  all_goals cases h

end Facts

/-! ## The obligations -/

/-- Settles O17: past the length check both commands end in success, and the comparison only sets `CK_PASSED`. -/
theorem checksumMismatchIsNoError : Obligations.ChecksumMismatchIsNoError := by
  unfold Obligations.ChecksumMismatchIsNoError
  intro s hs hl
  obtain ⟨r, hr⟩ := checksumOf_exists hs hl
  have hpassed := checksumOf_passed_iff hr
  have hlong : ¬ s.len < minLen := Nat.not_lt.mpr hl
  exact ⟨⟨_, execValidate_of_long hlong hr, rfl, rfl, rfl, hpassed⟩,
    ⟨_, execLoad_of_long hlong hr, rfl, rfl, rfl, hpassed⟩⟩

/-- Settles O30: `LOAD` on the short buffer clears `PARSED` and `CK_DONE`, so neither view has a value. -/
theorem loadCartridgeFailures : Obligations.LoadCartridgeFailures := by
  unfold Obligations.LoadCartridgeFailures
  refine fun s => ⟨rfl, fun bytes hl => ?_⟩
  have hload := execLoad_of_short (s := hostLoadImage bytes s) hl
  have hview := headerView_of_not_parsed
    (s := ((hostLoadImage bytes s).setParsed false).clearChecksum.setResult .truncatedImage .none) rfl
  exact ⟨_, loadCartridge_of_no_result hload (loadResult_of_no_header hview), hview, checksumResult_of_not_done rfl,
    rfl⟩

/-- Settles O36: the byte selects its command, whose checks decide. -/
theorem errorPriority : Obligations.ErrorPriority := by
  unfold Obligations.ErrorPriority
  intro s c hs
  obtain ⟨t, h⟩ := writeCommand_exists hs c
  have ofCommand (i : Instr) (hc : c = encode i) : exec i s = .next t :=
    (writeCommand_encode i s).symm.trans (hc ▸ h)
  refine ⟨t, h, fun hc => ?_, fun hc => ?_, fun hc hp => ?_, fun hc => execCtypeName_err (ofCommand .ctypeName hc),
    fun hc => execRomSizeKib_err (ofCommand .romSizeKib hc), fun hc => execRamSizeKib_err (ofCommand .ramSizeKib hc),
    fun hc hp => ?_⟩
  · rw [writeCommand_of_error (decodeByte_reserved hc)] at h
    obtain rfl := Host.Outcome.next.inj h
    rfl
  · rcases hc with hc | hc | hc
    · exact exec_err_of_lengthChecked (by decide) (ofCommand .parse hc)
    · exact exec_err_of_lengthChecked (by decide) (ofCommand .validate hc)
    · exact exec_err_of_lengthChecked (by decide) (ofCommand .load hc)
  · rcases hc with hc | hc | hc | hc | hc
    · exact query_err_of_not_parsed (by decide) hp (ofCommand .ctypeName hc)
    · exact query_err_of_not_parsed (by decide) hp (ofCommand .licenseeName hc)
    · exact query_err_of_not_parsed (by decide) hp (ofCommand .romSizeKib hc)
    · exact query_err_of_not_parsed (by decide) hp (ofCommand .ramSizeKib hc)
    · exact query_err_of_not_parsed (by decide) hp (ofCommand .titleText hc)
  · rcases hc with hc | hc
    · exact execLicenseeName_err (ofCommand .licenseeName hc) hp
    · exact execTitleText_err (ofCommand .titleText hc) hp

/-- Settles O37: the step runs the oldest operation on the rest of the queue, which the invariant does not see. -/
theorem everyOperationCompletes : Obligations.EveryOperationCompletes := by
  unfold Obligations.EveryOperationCompletes
  intro s op rest hs hq hread
  exact step_of_pending hq ▸ runHostOp_exists (hs.setPending rest) hread

/-- Settles O55: the next system differs at index `k` only. -/
theorem instancesIndependent : Obligations.InstancesIndependent := by
  unfold Obligations.InstancesIndependent
  intro n k sys sys' h
  obtain ⟨t, hstep, rfl⟩ := stepInstance_next h
  refine ⟨?_, fun j hj => ?_⟩
  · rw [Fin.getElem_fin, Fin.getElem_fin, Vector.getElem_set_self]
    exact hstep
  · exact Vector.getElem_set_ne k.isLt j.isLt (fun heq => hj (Fin.ext heq.symm))

/-- Settles O7. -/
theorem waitsForTheHost : Obligations.WaitsForTheHost := by
  unfold Obligations.WaitsForTheHost
  exact fun _ => step_of_pending_nil

/-- Settles O35: `raise` is the one write of `ERR` and `RES`. -/
theorem raiseWritesErrAndRes : Obligations.RaiseWritesErrAndRes := by
  unfold Obligations.RaiseWritesErrAndRes
  exact fun _ _ => rfl

end Sys2Proof.Machine
end

section
/-! PROOFS. The statements of 70_reset_and_hazards.md: how the flags move within a session, answers that another
command does not affect, and the commands straight after reset. -/

namespace Sys2Proof.Machine

open Sys2Proof

section Facts

variable {s t u : State} {i j : Instr} {c : Byte}

/-! ## The flags of a session -/

/-- R193: a short session has neither a parsed header nor a checksum result. -/
theorem State.Inv.flags_of_short (hs : s.Inv) (hl : s.len < 0x150) : s.parsed = false ∧ s.ckDone = false :=
  ⟨Bool.eq_false_iff.mpr fun hp => Nat.not_le.mpr hl (hs.parsedLong hp),
    Bool.eq_false_iff.mpr fun hd => Nat.not_le.mpr hl (hs.doneLong hd)⟩

/-- R18, R26, R193: two states of one session that both hold a checksum result hold the same one. -/
theorem State.Inv.checksum_eq (hs : s.Inv) (ht : t.Inv) (himg : t.img = s.img) (hlen : t.len = s.len)
    (hsd : s.ckDone = true) (htd : t.ckDone = true) : t.ckPassed = s.ckPassed ∧ t.ckComputed = s.ckComputed := by
  have heq := (ht.doneResult htd).symm.trans ((checksumOf_congr himg hlen).trans (hs.doneResult hsd))
  obtain ⟨hcomputed, hpassed⟩ := ChecksumResult.mk.inj (Option.some.inj heq)
  exact ⟨hpassed, hcomputed⟩

/-- R193: in a long session `PARSE` and `LOAD` set `PARSED`, `VALIDATE` and `LOAD` set `CK_DONE`, and no command
clears either. -/
theorem exec_flags_of_long (hl : 0x150 ≤ s.len) (h : exec i s = .next t) :
    t.parsed = (s.parsed || decide (i = .parse) || decide (i = .load)) ∧
    t.ckDone = (s.ckDone || decide (i = .validate) || decide (i = .load)) := by
  have hlong : ¬ s.len < minLen := Nat.not_lt.mpr hl
  cases i with
  | parse =>
    obtain ⟨hshort, -⟩ | ⟨-, rfl⟩ := execParse_next h
    · exact absurd hshort hlong
    · simp
  | validate =>
    obtain ⟨hshort, -⟩ | ⟨-, r, -, rfl⟩ := execValidate_next h
    · exact absurd hshort hlong
    · simp [State.setDone_eq]
  | load =>
    obtain ⟨hshort, -⟩ | ⟨-, r, -, rfl⟩ := execLoad_next h
    · exact absurd hshort hlong
    · simp [State.setDone_eq]
  | ctypeName | licenseeName | romSizeKib | ramSizeKib | titleText =>
    obtain ⟨e, r, rfl, -, -⟩ := query_next (by decide) h
    simp

/-! ## The flags in terms of the command byte -/

theorem encode_injective : Function.Injective encode := fun i j h =>
  Except.ok.inj ((decodeByte_encode i).symm.trans ((congrArg decodeByte h).trans (decodeByte_encode j)))

theorem encode_beq_encode (i k : Instr) : (encode i == encode k) = decide (i = k) :=
  (Bool.beq_eq_decide_eq _ _).trans (decide_eq_decide.mpr encode_injective.eq_iff)

/-- R71, R72: a byte the decoder rejects is no command's code. -/
theorem beq_encode_of_error {e : DecodeReject} (h : decodeByte c = .error e) (k : Instr) : (c == encode k) = false :=
  beq_eq_false_iff_ne.mpr fun hc => nomatch h.symm.trans (decodeByte_eq_ok_iff.mpr hc)

/-- R193: `exec_flags_of_long` by the byte written; a reserved byte moves no flag. -/
theorem writeCommand_flags_of_long (hl : 0x150 ≤ s.len) (h : writeCommand c s = .next t) :
    t.parsed = (s.parsed || c == encode .parse || c == encode .load) ∧
    t.ckDone = (s.ckDone || c == encode .validate || c == encode .load) := by
  obtain ⟨i, hd, hexec⟩ | ⟨e, he, rfl⟩ := writeCommand_next h
  · obtain rfl := decodeByte_eq_ok_iff.mp hd
    simpa only [encode_beq_encode] using exec_flags_of_long hl hexec
  · simp [beq_encode_of_error he]

theorem writeCommand_keeps_inv (hs : s.Inv) (h : writeCommand c s = .next t) : t.Inv :=
  runHostOp_keeps_inv (op := .writeCmd c) hs h

/-! ## A command after another -/

/-- R193: a long session's `PARSED` stays as it is, except where `PARSE` or `LOAD` sets it. -/
theorem exec_keeps_parsed_of_long (hl : 0x150 ≤ s.len) (hj : s.parsed = true ∨ (j ≠ .parse ∧ j ≠ .load))
    (h : exec j s = .next t) : t.parsed = s.parsed := by
  obtain ⟨hparsed, -⟩ := exec_flags_of_long hl h
  obtain hp | ⟨hparse, hload⟩ := hj
  · simp [hparsed, hp]
  · simp [hparsed, hparse, hload]

/-- R200: with the same image in a long session and, for a read-only command, the same `PARSED`, a command answers the
same `ERR` and `RES`. -/
theorem exec_answer_transfer (hl : 0x150 ≤ s.len) (himg : t.img = s.img) (hlen : t.len = s.len)
    (hp : i ∈ readOnlyCommands → t.parsed = s.parsed) (h : exec i s = .next u) :
    ∃ v, exec i t = .next v ∧ v.err = u.err ∧ v.res = u.res := by
  have hlong : ¬ s.len < minLen := Nat.not_lt.mpr hl
  have hlong' : ¬ t.len < minLen := hlen ▸ hlong
  have hck : checksumOf t = checksumOf s := checksumOf_congr himg hlen
  cases i with
  | parse =>
    obtain ⟨hshort, -⟩ | ⟨-, rfl⟩ := execParse_next h
    · exact absurd hshort hlong
    · exact ⟨_, execParse_of_long hlong', rfl, rfl⟩
  | validate =>
    obtain ⟨hshort, -⟩ | ⟨-, r, hr, rfl⟩ := execValidate_next h
    · exact absurd hshort hlong
    · exact ⟨_, execValidate_of_long hlong' (hck.trans hr), rfl, rfl⟩
  | load =>
    obtain ⟨hshort, -⟩ | ⟨-, r, hr, rfl⟩ := execLoad_next h
    · exact absurd hshort hlong
    · exact ⟨_, execLoad_of_long hlong' (hck.trans hr), rfl, rfl⟩
  | ctypeName | licenseeName | romSizeKib | ramSizeKib | titleText =>
    obtain ⟨e, r, rfl, hv⟩ :=
      query_transfer (by decide) (hp (by decide)) (fun a _ _ => imgByte_congr himg hlen a) h
    exact ⟨_, hv, rfl, rfl⟩

end Facts

/-! ## The obligations -/

/-- Settles O42: the invariant clears the flags of a short session and fixes the checksum result of the image; in a
long one the byte written decides. -/
theorem flagTransitions : Obligations.FlagTransitions := by
  unfold Obligations.FlagTransitions
  intro s t c hs h
  have ht : t.Inv := writeCommand_keeps_inv hs h
  obtain ⟨himg, hlen⟩ := writeCommand_image h
  refine ⟨fun hl => ht.flags_of_short (hlen ▸ hl), fun hl => writeCommand_flags_of_long hl h, fun hd => ?_⟩
  obtain ⟨-, hdone⟩ := writeCommand_flags_of_long (hs.doneLong hd) h
  exact hs.checksum_eq ht himg hlen hd (by simp [hdone, hd])

/-- Settles O44: the other command keeps the image, and `PARSED` where the answer depends on it. -/
theorem answerUnaffectedByOtherCommand : Obligations.AnswerUnaffectedByOtherCommand := by
  unfold Obligations.AnswerUnaffectedByOtherCommand
  intro i j s t u hl hheader hj hi
  obtain ⟨himg, hlen, -, -⟩ := exec_frame hj
  exact exec_answer_transfer hl himg hlen (fun hq => exec_keeps_parsed_of_long hl (hheader hq) hj) hi

/-- Settles O47: after reset the image is short, no header is parsed and no offset has a byte. -/
theorem commandsAfterReset : Obligations.CommandsAfterReset := by
  unfold Obligations.CommandsAfterReset
  have hshort : State.reset.len < minLen := by decide
  exact ⟨execParse_of_short hshort, execValidate_of_short hshort, execLoad_of_short hshort,
    fun _ hi => query_of_not_parsed hi rfl, fun _ hc => writeCommand_of_error (decodeByte_reserved hc),
    fun a => imgByte_eq_none_of_le (Nat.zero_le a)⟩

end Sys2Proof.Machine
end
